-- ==== Sys2Proof/Word.lean ====
section
/-! DEFINITION. The word types of the core (00_scope.md section 3): bytes, 16-bit words, 12-bit addresses,
and the index of a general register. -/

namespace Sys2Proof

/-- A memory byte, and the contents of a general register (R8, R21). -/
abbrev Byte := BitVec 8

/-- The contents of `pc` and of a call-stack entry (R11, R13). -/
abbrev Word := BitVec 16

/-- The 16-bit opcode formed from two consecutive memory bytes (R36). -/
abbrev Opcode := BitVec 16

/-- The 12-bit `addr` field of an instruction (R37). -/
abbrev Addr := BitVec 12

/-- A general register's index, 0x0 to 0xF (R8). Every value names one register, so no index is out of range. -/
abbrev RegIdx := Fin 16

end Sys2Proof
end

