-- ==== Sys2Proof/Config.lean ====
section
/-! DEFINITION. What the hardware fixes and the model names (00_scope.md section 3). The sizes are in the types: 16
registers of 8 bits, 16 stack entries of 16 bits, 4096 bytes. The spec leaves no value open, so nothing is opaque. -/

namespace Sys2Proof.Config

/-- The only address the hardware fixes: execution starts at 0x000 (R28, R90). -/
abbrev entryPoint : Word := 0x0000#16

/-- What a byte nobody has written reads as: memory is zero-initialised at construction (R21, R90). -/
abbrev resetByte : Byte := 0x00#8

/-- VF, the register the register add writes the carry to (R9, R69). -/
abbrev vf : RegIdx := 15

end Sys2Proof.Config
end

