-- ==== Sys2Proof/Machine/State.lean ====
section
/-! DEFINITION. The state of the core (10_state.md, "exactly" the pieces R6 lists), the reasons a step can stop, and
the state after reset (R90). -/

namespace Sys2Proof.Machine

/-- The run status (R16). -/
inductive RunStatus where
  /-- Constructed, not yet started. -/
  | ready
  /-- The loop is stepping. -/
  | running
  /-- The loop ended at a `0x0000` opcode. -/
  | halted
  /-- The loop ended at a fault. -/
  | faulted
  deriving DecidableEq, Repr

/-- The four fault causes of the hardware (R71). A fault is a state the core enters (R78), not an outcome of `step`. -/
inductive FaultCause where
  /-- `CALL` with `sp = 16` (R72). -/
  | stackOverflow
  /-- `RET` with `sp = 0` (R73). -/
  | stackUnderflow
  /-- An opcode that matches no row of the opcode map (R74). -/
  | unknownOpcode
  /-- A fetch with `pc + 1 > 0xFFF` (R75). -/
  | fetchOutOfBounds
  deriving DecidableEq, Repr

/-- Memory: the listed bytes, addresses strictly rising, none equal to what an unlisted address reads as
(`Memory.wf` of Machine/Ops.lean). -/
abbrev Memory := List Host.Cell

/-- The architectural state (R6). -/
structure State where
  /-- `x[0]` to `x[15]`, V0 to VF (R8). -/
  regs : Vector Byte 16
  /-- The program counter (R11). -/
  pc : Word
  /-- `stack[0]` to `stack[15]`, the saved return addresses (R13). -/
  stack : Vector Word 16
  /-- The next free slot of the stack, 0 to 16 (R14). -/
  sp : Fin 17
  /-- `mem[0x000]` to `mem[0xFFF]` (R21). -/
  mem : Memory
  /-- The run status (R16). -/
  status : RunStatus
  /-- `fault_cause`; `none` is code 0, "no fault" (R17, R71). -/
  faultCause : Option FaultCause
  /-- `fault_pc` (R17). -/
  faultPc : Word
  /-- `fault_opcode` (R17). -/
  faultOpcode : Opcode
  deriving DecidableEq, Repr

/-- Why `step` answers no next state. Steps happen only in `Running` (R16), so in every other status the spec gives
no step at all; the model stops there by name (log 1). No instruction raises one of these. -/
inductive Fault where
  /-- Raised by `step` in status `Ready`: the host has not started the core (R92). Safe: no behaviour is invented. -/
  | notStarted
  /-- Raised by `step` in status `Halted`: terminal until reset (R16, R88). Safe: no behaviour is invented. -/
  | afterHalt
  /-- Raised by `step` in status `Faulted`: terminal until reset (R16, R79). Safe: no behaviour is invented. -/
  | afterFault
  deriving DecidableEq, Repr

/-- Why an instruction is refused. -/
inductive Refusal where
  /-- Raised by an arm of `exec` whose instruction has no meaning yet; no arm does. Safe: the model stops. -/
  | notModelled (mnemonic : String)
  deriving DecidableEq, Repr

/-- The state after reset, which is machine construction (R89, R90): every register, stack entry and memory byte 0,
`pc` at the entry point, the stack empty, status `Ready`, no fault recorded. -/
def State.reset : State where
  regs := Vector.replicate 16 0
  pc := Config.entryPoint
  stack := Vector.replicate 16 0
  sp := 0
  mem := []
  status := .ready
  faultCause := none
  faultPc := 0
  faultOpcode := 0

end Sys2Proof.Machine
end

