-- ==== Sys2Proof/Machine/Operands.lean ====
section
/-! DEFINITION. The operand forms of the core: a general register, and an absolute address (R37, R38). An immediate
byte is used as it stands. -/

namespace Sys2Proof.Machine

/-- `x[i]`, a read of general register `i`. No register is hardwired (R8). -/
def State.reg (s : State) (i : RegIdx) : Byte := s.regs[i.val]'i.isLt

/-- `x[i] <- v`. Each index names one distinct register (R8). -/
def State.setReg (s : State) (i : RegIdx) (v : Byte) : State := { s with regs := s.regs.set i.val v i.isLt }

/-- `zext_16(addr)`, the value a jump or call loads into `pc` (R38). -/
def targetOf (addr : Addr) : Word := addr.setWidth 16

end Sys2Proof.Machine
end

