-- ==== Sys2Proof/Machine/Flags.lean ====
section
/-! DEFINITION. The only arithmetic of the hardware, 8-bit unsigned addition (R70), and its carry: VF is the only
flag, and only the register add writes it as one (R9, R69). -/

namespace Sys2Proof.Machine

/-- The exact sum of two bytes, 0 to 510 (R69's 9-bit `s`). -/
def exactSum (a b : Byte) : Nat := a.toNat + b.toNat

/-- The sum modulo 256: overflow always wraps and never faults (R63, R69, R70). -/
def wrappedSum (a b : Byte) : Byte := BitVec.ofNat 8 (exactSum a b)

/-- 1 if and only if the unsigned sum exceeds 255, else 0 (R69). -/
def carryOut (a b : Byte) : Byte := if exactSum a b > 255 then 1 else 0

/-- `x[15] <- carry`, the flag write of the register add (R69). -/
def State.setCarry (s : State) (a b : Byte) : State := s.setReg Config.vf (carryOut a b)

end Sys2Proof.Machine
end

