-- ==== Sys2Proof/Machine/AluRegister.lean ====
section
/-! DEFINITION. The register-register instructions, LD, OR, AND, XOR and ADD (44_alu_register.md). Both operands are
read before any register is written (R64). Every handler is entered with `pc = ia + 2` and leaves `pc` alone. -/

namespace Sys2Proof.Machine

/-- The family's common shape: read `x[x]` and `x[y]`, combine, write `x[x]` (R64). -/
def State.combine (s : State) (x y : RegIdx) (f : Byte → Byte → Byte) : State :=
  s.setReg x (f (s.reg x) (s.reg y))

/-- `LD Vx, Vy`: copy (R65). -/
def execLdReg (x y : RegIdx) (s : State) : Host.Outcome State Fault Refusal := .next (s.combine x y fun _ b => b)

/-- `OR Vx, Vy`; VF is not cleared (R66, D11). -/
def execOrReg (x y : RegIdx) (s : State) : Host.Outcome State Fault Refusal := .next (s.combine x y fun a b => a ||| b)

/-- `AND Vx, Vy`; VF is not cleared (R67, D11). -/
def execAndReg (x y : RegIdx) (s : State) : Host.Outcome State Fault Refusal := .next (s.combine x y fun a b => a &&& b)

/-- `XOR Vx, Vy`; VF is not cleared (R68, D11). -/
def execXorReg (x y : RegIdx) (s : State) : Host.Outcome State Fault Refusal := .next (s.combine x y fun a b => a ^^^ b)

/-- `ADD Vx, Vy`: the wrapped sum to `x[x]`, then the carry to VF, written last, so with `x = 0xF` VF ends as the
carry (R69, D10). The carry is that of the operands as they were read. -/
def execAddReg (x y : RegIdx) (s : State) : Host.Outcome State Fault Refusal :=
  .next ((s.combine x y wrappedSum).setCarry (s.reg x) (s.reg y))

end Sys2Proof.Machine
end

