-- ==== Sys2Proof/Syntax.lean ====
section
/-! DEFINITION. The instructions of the core: the 15 rows of spec/opcode_table.json (R45), one constructor each. -/

namespace Sys2Proof

/-- An instruction. Two registers are `x`, `y`; an immediate byte is `kk`; an absolute address is `addr` (R37). -/
inductive Instr where
  /-- `HALT`, 0x0000 (R51). -/
  | halt
  /-- `CLS`, 0x00E0 (R52). -/
  | cls
  /-- `RET`, 0x00EE (R54). -/
  | ret
  /-- `JP addr`, 0x1nnn (R55). -/
  | jp (addr : Addr)
  /-- `CALL addr`, 0x2nnn (R56). -/
  | call (addr : Addr)
  /-- `SE Vx, kk`, 0x3xkk (R59). -/
  | seImm (x : RegIdx) (kk : Byte)
  /-- `SNE Vx, kk`, 0x4xkk (R60). -/
  | sneImm (x : RegIdx) (kk : Byte)
  /-- `SE Vx, Vy`, 0x5xy0 (R61). -/
  | seReg (x y : RegIdx)
  /-- `LD Vx, kk`, 0x6xkk (R62). -/
  | ldImm (x : RegIdx) (kk : Byte)
  /-- `ADD Vx, kk`, 0x7xkk (R63). -/
  | addImm (x : RegIdx) (kk : Byte)
  /-- `LD Vx, Vy`, 0x8xy0 (R65). -/
  | ldReg (x y : RegIdx)
  /-- `OR Vx, Vy`, 0x8xy1 (R66). -/
  | orReg (x y : RegIdx)
  /-- `AND Vx, Vy`, 0x8xy2 (R67). -/
  | andReg (x y : RegIdx)
  /-- `XOR Vx, Vy`, 0x8xy3 (R68). -/
  | xorReg (x y : RegIdx)
  /-- `ADD Vx, Vy`, 0x8xy4 (R69). -/
  | addReg (x y : RegIdx)
  deriving DecidableEq, Repr

end Sys2Proof
end

