-- ==== Sys2Proof/WellFormed.lean ====
section
/-! DEFINITION. Which instructions are well formed, and where one may stand.

The operand types are exactly as wide as the fields of R37, so an operand outside its field cannot be written down
(log 8) and every term of `Instr` is well formed. What can be ill formed is an instruction's PLACE: both its bytes
must lie in memory (R23, R35). -/

namespace Sys2Proof

/-- Every operand lies in its field (R8, R37): the types say so, and `Instr.wellFormed_all` of Laws/Decode.lean
proves it. -/
def Instr.wellFormed : Instr → Bool
  | .halt | .cls | .ret => true
  | .jp addr | .call addr => addr.toNat < 2 ^ 12
  | .seImm x kk | .sneImm x kk | .ldImm x kk | .addImm x kk => x.val < 2 ^ 4 && kk.toNat < 2 ^ 8
  | .seReg x y | .ldReg x y | .orReg x y | .andReg x y | .xorReg x y | .addReg x y => x.val < 2 ^ 4 && y.val < 2 ^ 4

/-- An instruction placed at address `a`: both bytes exist, that is `a <= 4094` (R23, R35). -/
def Instr.wellPlaced (a : Nat) (i : Instr) : Bool :=
  i.wellFormed && a + 1 < 4096

/-- An address the host may name in a memory write: `0 <= a <= 0xFFF` (R91). -/
def wellFormedAddress (a : Nat) : Bool :=
  a < 4096

end Sys2Proof
end

