-- ==== Sys2Proof/Decode.lean ====
section
/-! DEFINITION. Decoding an opcode and encoding an instruction (30_encoding.md). `decode` is total and rejects an
opcode that is no instruction by the reason R47 gives; `opcodeTable` is the opcode map of R45 row by row. -/

namespace Sys2Proof

/-! ## The fields of an opcode (R37, R38) -/

/-- `c`, bits 15 to 12: the top nibble. -/
def cField (w : Opcode) : BitVec 4 := w.extractLsb' 12 4

/-- `x`, bits 11 to 8: the first register selector. -/
def xField (w : Opcode) : RegIdx := (w.extractLsb' 8 4).toFin

/-- `y`, bits 7 to 4: the second register selector. -/
def yField (w : Opcode) : RegIdx := (w.extractLsb' 4 4).toFin

/-- `kk`, bits 7 to 0: the immediate byte. -/
def kkField (w : Opcode) : Byte := w.extractLsb' 0 8

/-- `n`, bits 3 to 0: the minor opcode. -/
def nField (w : Opcode) : BitVec 4 := w.extractLsb' 0 4

/-- `addr`, bits 11 to 0: the absolute address. -/
def addrField (w : Opcode) : Addr := w.extractLsb' 0 12

/-! ## Decoding (R44, R47) -/

/-- Why an opcode is no instruction: the four rows of R47's table. -/
inductive IllegalOpcode where
  /-- 0x0001 to 0x0FFF but 0x00E0 and 0x00EE: top nibble 0 matches only the three fixed values. -/
  | systemValue
  /-- 0x5xyn with n from 1 to 0xF: the pattern 0x5xy0 fixes n = 0. -/
  | skipMinor
  /-- 0x8xyn with n from 5 to 0xF: any other 0x8xy_ minor. -/
  | aluMinor
  /-- 0x9000 to 0xFFFF: any unmatched top nibble. -/
  | topNibble
  deriving DecidableEq, Repr

/-- What decoding an opcode answers. -/
inductive Decoded where
  /-- The opcode matches this instruction's row of R45. -/
  | instr (i : Instr)
  /-- The opcode matches no row, for this reason. -/
  | illegal (why : IllegalOpcode)
  deriving DecidableEq, Repr

/-- The instruction decoded, if there is one. -/
def Decoded.instr? : Decoded → Option Instr
  | .instr i => some i
  | .illegal _ => none

/-- Top nibble 0: three fixed 16-bit values. -/
def decodeSystem (w : Opcode) : Decoded :=
  if w = 0x0000#16 then .instr .halt
  else if w = 0x00E0#16 then .instr .cls
  else if w = 0x00EE#16 then .instr .ret
  else .illegal .systemValue

/-- Top nibble 5: only the minor opcode 0 is an instruction. -/
def decodeSkipReg (w : Opcode) : Decoded :=
  if nField w = 0 then .instr (.seReg (xField w) (yField w)) else .illegal .skipMinor

/-- Top nibble 8: the minor opcode selects the operation (R64). -/
def decodeAlu (w : Opcode) : Decoded :=
  match (nField w).toNat with
  | 0 => .instr (.ldReg (xField w) (yField w))
  | 1 => .instr (.orReg (xField w) (yField w))
  | 2 => .instr (.andReg (xField w) (yField w))
  | 3 => .instr (.xorReg (xField w) (yField w))
  | 4 => .instr (.addReg (xField w) (yField w))
  | _ => .illegal .aluMinor

/-- The dispatch of R44 on the full opcode: the top nibble selects the family, the minor opcode disambiguates. -/
def decode (w : Opcode) : Decoded :=
  match (cField w).toNat with
  | 0 => decodeSystem w
  | 1 => .instr (.jp (addrField w))
  | 2 => .instr (.call (addrField w))
  | 3 => .instr (.seImm (xField w) (kkField w))
  | 4 => .instr (.sneImm (xField w) (kkField w))
  | 5 => decodeSkipReg w
  | 6 => .instr (.ldImm (xField w) (kkField w))
  | 7 => .instr (.addImm (xField w) (kkField w))
  | 8 => decodeAlu w
  | _ => .illegal .topNibble

/-- The opcode of two bytes, the one at the lower address more significant (R24, R36). -/
def opcodeOfBytes (hi lo : Byte) : Opcode := hi ++ lo

/-- The decoder on the two bytes of an instruction, the first at the lower address. -/
def decodeBytes (hi lo : Byte) : Decoded := decode (opcodeOfBytes hi lo)

/-! ## Encoding (R49's table of syntax and opcode) -/

/-- The four bits of a register selector. -/
def regBits (r : RegIdx) : BitVec 4 := BitVec.ofFin r

/-- Format A: `c`, then the address. -/
def wordA (c : BitVec 4) (addr : Addr) : Opcode := c ++ addr

/-- Format XK: `c`, a register, an immediate byte. -/
def wordXK (c : BitVec 4) (x : RegIdx) (kk : Byte) : Opcode := (c ++ regBits x) ++ kk

/-- Format XY: `c`, two registers, the minor opcode. -/
def wordXY (c : BitVec 4) (x y : RegIdx) (n : BitVec 4) : Opcode := (c ++ regBits x) ++ (regBits y ++ n)

/-- The opcode of an instruction (R45, R49). -/
def encode : Instr → Opcode
  | .halt => 0x0000#16
  | .cls => 0x00E0#16
  | .ret => 0x00EE#16
  | .jp addr => wordA 1 addr
  | .call addr => wordA 2 addr
  | .seImm x kk => wordXK 3 x kk
  | .sneImm x kk => wordXK 4 x kk
  | .seReg x y => wordXY 5 x y 0
  | .ldImm x kk => wordXK 6 x kk
  | .addImm x kk => wordXK 7 x kk
  | .ldReg x y => wordXY 8 x y 0
  | .orReg x y => wordXY 8 x y 1
  | .andReg x y => wordXY 8 x y 2
  | .xorReg x y => wordXY 8 x y 3
  | .addReg x y => wordXY 8 x y 4

/-- The byte of an opcode at the lower address (R24). -/
def hiByte (w : Opcode) : Byte := w.extractLsb' 8 8

/-- The byte of an opcode at the higher address (R24). -/
def loByte (w : Opcode) : Byte := w.extractLsb' 0 8

/-! ## The opcode map (R45) -/

/-- A row of R45: an opcode selects it when `opcode & mask = match`, and its operands are the opcode's fields. -/
structure OpcodeRow where
  pattern : Opcode
  mask : Opcode
  operands : Opcode → Instr

/-- `opcode & mask = match` (R44). -/
abbrev OpcodeRow.Selects (r : OpcodeRow) (w : Opcode) : Prop := w &&& r.mask = r.pattern

/-- The 15 rows of R45, with the match and mask values the spec writes. -/
def opcodeTable : List OpcodeRow := [
  ⟨0x0000, 0xFFFF, fun _ => .halt⟩,
  ⟨0x00E0, 0xFFFF, fun _ => .cls⟩,
  ⟨0x00EE, 0xFFFF, fun _ => .ret⟩,
  ⟨0x1000, 0xF000, fun w => .jp (addrField w)⟩,
  ⟨0x2000, 0xF000, fun w => .call (addrField w)⟩,
  ⟨0x3000, 0xF000, fun w => .seImm (xField w) (kkField w)⟩,
  ⟨0x4000, 0xF000, fun w => .sneImm (xField w) (kkField w)⟩,
  ⟨0x5000, 0xF00F, fun w => .seReg (xField w) (yField w)⟩,
  ⟨0x6000, 0xF000, fun w => .ldImm (xField w) (kkField w)⟩,
  ⟨0x7000, 0xF000, fun w => .addImm (xField w) (kkField w)⟩,
  ⟨0x8000, 0xF00F, fun w => .ldReg (xField w) (yField w)⟩,
  ⟨0x8001, 0xF00F, fun w => .orReg (xField w) (yField w)⟩,
  ⟨0x8002, 0xF00F, fun w => .andReg (xField w) (yField w)⟩,
  ⟨0x8003, 0xF00F, fun w => .xorReg (xField w) (yField w)⟩,
  ⟨0x8004, 0xF00F, fun w => .addReg (xField w) (yField w)⟩]

/-! ## The host's reading of the decoder -/

/-- The opcode of an instruction given as the opcode table numbers it: bits above `nbits` are 0. -/
def tableOpcode (nbits w : Nat) : Opcode := BitVec.ofNat 16 (w % 2 ^ nbits)

/-- The decoder's answer on that instruction's two bytes, laid out as the hardware stores them. -/
def decodeTableWord (nbits w : Nat) : Option Instr :=
  (decodeBytes (hiByte (tableOpcode nbits w)) (loByte (tableOpcode nbits w))).instr?

end Sys2Proof
end

