-- ==== Sys2Proof/Machine/Ops.lean ====
section
/-! DEFINITION. The named operations over memory, `pc`, the call stack, the run status and the fault record. -/

namespace Sys2Proof.Machine

/-! ## Memory as a canonical list (R21) -/

/-- Addresses rise from `lo` on, lie in memory, and no listed byte is the reset byte. -/
def Memory.wfFrom (lo : Nat) : Memory → Bool
  | [] => true
  | (a, v) :: m => decide (lo ≤ a) && decide (a < 4096) && v != Config.resetByte && Memory.wfFrom (a + 1) m

/-- The canonical form: equal memories are equal lists. -/
def Memory.wf (m : Memory) : Bool := Memory.wfFrom 0 m

/-- `mem[a]`; a byte nobody has written is 0 (R21, R90). -/
def Memory.read : Memory → Nat → Byte
  | [], _ => Config.resetByte
  | (b, v) :: m, a => if a = b then v else Memory.read m a

/-- `mem[a] <- v`, keeping the canonical form: writing the reset byte removes the entry. -/
def Memory.write : Memory → Nat → Byte → Memory
  | [], a, v => if v = Config.resetByte then [] else [(a, v)]
  | (b, u) :: m, a, v =>
    if a < b then (if v = Config.resetByte then (b, u) :: m else (a, v) :: (b, u) :: m)
    else if a = b then (if v = Config.resetByte then m else (a, v) :: m)
    else (b, u) :: Memory.write m a v

/-- `MemRead(a, 1)`, defined only when `a <= 0xFFF` (00_scope.md section 4, R21). -/
def State.memRead (s : State) (a : Nat) : Option Byte :=
  if a < 4096 then some (s.mem.read a) else none

/-- `MemWrite(a, 1, v)`, the host's write; no instruction uses it (R25). Only for `a <= 0xFFF`. -/
def State.memWrite (s : State) (a : Nat) (v : Byte) : Option State :=
  if a < 4096 then some { s with mem := s.mem.write a v } else none

/-! ## The instruction cycle's parts (R40) -/

/-- `Fetch(p)`: both bytes, big-endian, at any alignment; `none` where `p + 1 > 0xFFF` (R23, R24, R26). -/
def State.fetchAt (s : State) (p : Word) : Option Opcode :=
  if p.toNat + 1 < 4096 then
    some (opcodeOfBytes (s.mem.read p.toNat) (s.mem.read (p.toNat + 1)))
  else none

/-- The fetch of a step, at `pc` (R41). -/
def State.fetch (s : State) : Option Opcode := s.fetchAt s.pc

/-- The advance `pc <- ia + 2`, before dispatch (R43). -/
def State.advance (s : State) : State := { s with pc := s.pc + 2 }

/-- `ia`, the address of the instruction being executed, seen from a handler, where `pc = ia + 2` (R43, log 3). -/
def State.ia (s : State) : Word := s.pc - 2

/-- `pc <- target` (00_scope.md section 4). -/
def State.jumpTo (s : State) (target : Word) : State := { s with pc := target }

/-- `Skip()`: `pc <- pc + 2`, on top of the advance (R58). -/
def State.skip (s : State) : State := { s with pc := s.pc + 2 }

/-- The shape of every conditional skip (R58): skip if the condition holds, else write nothing. -/
def State.skipIf (s : State) (c : Prop) [Decidable c] : State := if c then s.skip else s

/-! ## The call stack (R13, R14) -/

/-- `stack[i]` (R13). -/
def State.entry (s : State) (i : Fin 16) : Word := s.stack[i.val]'i.isLt

/-- Push: `stack[sp] <- v; sp <- sp + 1`; `none` when the stack is full (R56). -/
def State.push (s : State) (v : Word) : Option State :=
  if h : s.sp.val < 16 then
    some { s with stack := s.stack.set s.sp.val v h, sp := ⟨s.sp.val + 1, by omega⟩ }
  else none

/-- Pop: `sp <- sp - 1`, then the entry `sp` now indexes, which keeps its value; `none` when the stack is empty
(R54, D12). -/
def State.pop (s : State) : Option (Word × State) :=
  if h : 0 < s.sp.val then
    some (s.stack[s.sp.val - 1]'(by omega), { s with sp := ⟨s.sp.val - 1, by omega⟩ })
  else none

/-! ## The end of a run: halt and fault entry -/

/-- `halt`: `status <- Halted` (R51). -/
def State.halt (s : State) : State := { s with status := .halted }

/-- Fault entry, `raise F(fault_pc = p, fault_opcode = o)`: exactly these four writes (R78). There is no handler
and no return (R79): the core stops, because no step leaves `Faulted`. -/
def State.raise (s : State) (f : FaultCause) (p : Word) (o : Opcode) : State :=
  { s with status := .faulted, faultCause := some f, faultPc := p, faultOpcode := o }

/-- A fault raised by the handler of instruction `i`: `fault_pc = ia` and `fault_opcode` its opcode (R71, log 3). -/
def State.raiseAt (s : State) (f : FaultCause) (i : Instr) : State := s.raise f s.ia (encode i)

/-- FetchOutOfBounds: `pc` still holds the address that could not be fetched, and no opcode was formed (R75). -/
def State.raiseFetch (s : State) : State := s.raise .fetchOutOfBounds s.pc 0x0000#16

/-- UnknownOpcode, raised by the dispatch after the advance; it records the opcode (R74). -/
def State.raiseUnknown (s : State) (o : Opcode) : State := s.raise .unknownOpcode s.ia o

/-- The numeric code `fault_cause` holds (R71, D4); 0 is "no fault". -/
def causeCode : Option FaultCause → Nat
  | none => 0
  | some .stackOverflow => 1
  | some .stackUnderflow => 2
  | some .unknownOpcode => 3
  | some .fetchOutOfBounds => 4

end Sys2Proof.Machine
end

