-- ==== Sys2Proof/Machine/Control.lean ====
section
/-! DEFINITION. Control transfer, RET, JP and CALL (41_control_flow.md). Every handler is entered with
`pc = ia + 2`. -/

namespace Sys2Proof.Machine

/-- `RET`: StackUnderflow when the stack is empty, else pop the saved address into `pc` (R54, R73). -/
def execRet (s : State) : Host.Outcome State Fault Refusal :=
  match s.pop with
  | none => .next (s.raiseAt .stackUnderflow .ret)
  | some (target, s') => .next (s'.jumpTo target)

/-- `JP addr`: `pc <- zext_16(addr)` (R55). -/
def execJp (addr : Addr) (s : State) : Host.Outcome State Fault Refusal := .next (s.jumpTo (targetOf addr))

/-- `CALL addr`: StackOverflow when the stack is full, else push the advanced `pc` and jump (R56, R72). -/
def execCall (addr : Addr) (s : State) : Host.Outcome State Fault Refusal :=
  match s.push s.pc with
  | none => .next (s.raiseAt .stackOverflow (.call addr))
  | some s' => .next (s'.jumpTo (targetOf addr))

end Sys2Proof.Machine
end

