-- ==== Sys2Proof/Machine/Immediate.lean ====
section
/-! DEFINITION. The register-immediate instructions, LD and ADD (43_immediate.md). Every handler is entered with
`pc = ia + 2` and leaves `pc` alone. -/

namespace Sys2Proof.Machine

/-- `LD Vx, kk` (R62). -/
def execLdImm (x : RegIdx) (kk : Byte) (s : State) : Host.Outcome State Fault Refusal := .next (s.setReg x kk)

/-- `ADD Vx, kk`: wraps modulo 256 and writes no carry (R63, D11). -/
def execAddImm (x : RegIdx) (kk : Byte) (s : State) : Host.Outcome State Fault Refusal :=
  .next (s.setReg x (wrappedSum (s.reg x) kk))

end Sys2Proof.Machine
end

