-- ==== Sys2Proof/Machine/Skip.lean ====
section
/-! DEFINITION. The conditional skips, SE and SNE (42_skip.md). They read registers and write nothing but `pc`
(R58). Every handler is entered with `pc = ia + 2`. -/

namespace Sys2Proof.Machine

/-- `SE Vx, kk`: skip if the register equals the immediate (R59). -/
def execSeImm (x : RegIdx) (kk : Byte) (s : State) : Host.Outcome State Fault Refusal :=
  .next (s.skipIf (s.reg x = kk))

/-- `SNE Vx, kk`: skip if the register does not equal the immediate (R60). -/
def execSneImm (x : RegIdx) (kk : Byte) (s : State) : Host.Outcome State Fault Refusal :=
  .next (s.skipIf (s.reg x ≠ kk))

/-- `SE Vx, Vy`: skip if the register VALUES are equal, never the fields (R61). -/
def execSeReg (x y : RegIdx) (s : State) : Host.Outcome State Fault Refusal :=
  .next (s.skipIf (s.reg x = s.reg y))

end Sys2Proof.Machine
end

