-- ==== Sys2Proof/Machine/System.lean ====
section
/-! DEFINITION. The system instructions, HALT and CLS (40_system.md). Every handler is entered with `pc = ia + 2`. -/

namespace Sys2Proof.Machine

/-- `HALT`: the status becomes `Halted`, nothing else is written, and `pc` keeps the advanced value (R51). -/
def execHalt (s : State) : Host.Outcome State Fault Refusal := .next s.halt

/-- `CLS`: no effect but the advance (R52). -/
def execCls (s : State) : Host.Outcome State Fault Refusal := .next s

end Sys2Proof.Machine
end

