-- ==== Sys2Proof/Machine/HostInterface.lean ====
section
/-! DEFINITION. The host's moves and what it may read (70_reset_and_hazards.md section 2). They are transactions
beside the core's steps: `step` never makes one (log 5). -/

namespace Sys2Proof.Machine

/-- The host's moves: the writes and the start of R91 and R92, and reset, which is machine construction (R89). -/
inductive HostMove where
  /-- `MemWrite(a, 1, v)`, `0 <= a <= 0xFFF` (R91). -/
  | writeByte (a : Nat) (v : Byte)
  /-- `x[i] <- v` (R91). -/
  | writeReg (i : RegIdx) (v : Byte)
  /-- The host start (R92). -/
  | start
  /-- Construction of the machine anew, the only way out of `Halted` and `Faulted` (R89); for `Ready` and `Running`
see log 14 and log 5. -/
  | reset
  deriving DecidableEq, Repr

/-- The host start: `Ready` to `Running`; in any other status it does nothing (R92). -/
def State.hostStart (s : State) : State :=
  match s.status with
  | .ready => { s with status := .running }
  | .running | .halted | .faulted => s

/-- A host move; `none` where there is no such move: a write outside `Ready` or to an address outside memory (R91,
I12), and a reset while `Running`, when the host has no move but a start that does nothing (R92, log 5). That a
reset can be taken in `Ready` is a DESIGN CHOICE of the model: R89 names no status a reset starts from, and D9 calls
the host start the only other move there (log 14). It leads to no state that is not already reachable. -/
def State.hostMove (s : State) : HostMove → Option State
  | .writeByte a v => if s.status = .ready ∧ wellFormedAddress a then s.memWrite a v else none
  | .writeReg i v => if s.status = .ready then some (s.setReg i v) else none
  | .start => some s.hostStart
  | .reset => if s.status = .running then none else some State.reset

/-- What the host reads after a run: the status, the fault record and the register file (R93). -/
structure RunOutput where
  status : RunStatus
  faultCause : Option FaultCause
  faultPc : Word
  faultOpcode : Opcode
  regs : Vector Byte 16
  deriving DecidableEq, Repr

/-- The run's output; `none` until the run has ended (R92, R93). `pc`, `sp`, the stack and memory are no outputs. -/
def State.output (s : State) : Option RunOutput :=
  if s.status = .halted ∨ s.status = .faulted then
    some ⟨s.status, s.faultCause, s.faultPc, s.faultOpcode, s.regs⟩
  else none

/-- The host places an opcode's two bytes at `a`, where both lie in memory; elsewhere there is no place for it. -/
def State.placeOpcode (s : State) (a : Nat) (w : Opcode) : State :=
  if a + 1 < 4096 then
    { s with mem := (s.mem.write a (hiByte w)).write (a + 1) (loByte w) }
  else s

end Sys2Proof.Machine
end

