-- ==== Sys2Proof/Machine/Step.lean ====
section
/-! DEFINITION. One step of the core: fetch, decode, advance, dispatch (30_encoding.md section 4). -/

namespace Sys2Proof.Machine

/-- `Step()` of R40, enabled only in `Running` (R16). A fault of the core is a NEXT state with status `Faulted`
(R78, log 2); in a status in which the spec gives no step, the model stops by name (log 1). -/
def step (s : State) : Host.Outcome State Fault Refusal :=
  match s.status with
  | .ready => .fault .notStarted
  | .halted => .fault .afterHalt
  | .faulted => .fault .afterFault
  | .running =>
    match s.fetch with
    | none => .next s.raiseFetch
    | some w =>
      match decode w with
      | .illegal _ => .next (s.advance.raiseUnknown w)
      | .instr i => exec i s.advance

/-- `s` with an instruction of the opcode table stored where `step` fetches next, and the core started: the host's
load (R91) and start (R92) in one (log 4). Where `pc >= 4095` no instruction can stand and none is stored. -/
def State.withFetchWord (s : State) (nbits w : Nat) : State :=
  { s.placeOpcode s.pc.toNat (tableOpcode nbits w) with status := .running }

end Sys2Proof.Machine
end

