-- ==== Sys2Proof/Safety.lean ====
section
/-! DEFINITION. The terms claims are made in: frames, what a fault entry leaves, the reachable states, and the
invariant of the core. -/

namespace Sys2Proof.Machine

/-! ## Frames -/

/-- Every general register, VF among them, holds what it held. -/
def SameRegs (s t : State) : Prop := ∀ r, t.reg r = s.reg r

/-- The stack pointer and every stack entry, outstanding or not, hold what they held. -/
def SameStack (s t : State) : Prop := t.sp = s.sp ∧ ∀ i, t.entry i = s.entry i

/-- Every address reads as it read. -/
def SameMemory (s t : State) : Prop := ∀ a, t.memRead a = s.memRead a

/-- The three fields of the fault record hold what they held. -/
def SameFaultRecord (s t : State) : Prop :=
  t.faultCause = s.faultCause ∧ t.faultPc = s.faultPc ∧ t.faultOpcode = s.faultOpcode

/-- The run goes on: neither the status nor the fault record is written. -/
def SameRun (s t : State) : Prop := t.status = s.status ∧ SameFaultRecord s t

/-- Of all state, at most the registers in `ds` differ. -/
def OnlyRegsChange (ds : List RegIdx) (s t : State) : Prop :=
  (∀ r, r ∉ ds → t.reg r = s.reg r) ∧ t.pc = s.pc ∧ SameStack s t ∧ SameMemory s t ∧ SameRun s t

/-- Of all state, at most `pc` differs. -/
def OnlyPcChanges (s t : State) : Prop := SameRegs s t ∧ SameStack s t ∧ SameMemory s t ∧ SameRun s t

/-- `t` is `s` after fault entry for `f` with the record `p`, `o`: status and record written, and no register, stack
entry, stack pointer or memory byte (R78). The clause on `pc` is said where the fault is. -/
def FaultEntered (f : FaultCause) (p : Word) (o : Opcode) (s t : State) : Prop :=
  t.status = .faulted ∧ t.faultCause = some f ∧ t.faultPc = p ∧ t.faultOpcode = o ∧
    SameRegs s t ∧ SameStack s t ∧ SameMemory s t

/-- The registers an instruction writes: its destination `x[x]`, and VF for the register add alone (R9, R69, D11). -/
def destinations : Instr → List RegIdx
  | .halt | .cls | .ret | .jp _ | .call _ | .seImm _ _ | .sneImm _ _ | .seReg _ _ => []
  | .ldImm x _ | .addImm x _ | .ldReg x _ | .orReg x _ | .andReg x _ | .xorReg x _ => [x]
  | .addReg x _ => [x, Config.vf]

/-! ## Nested calls and returns (R57) -/

/-- Calls in the order listed, the i-th entered with its own advanced `pc`: whatever runs between two calls may set
`pc` (and the registers, which no call reads), and leaves the stack alone. -/
def runCalls : List (Word × Addr) → State → Host.Outcome State Fault Refusal
  | [], s => .next s
  | (p, addr) :: rest, s =>
    match exec (.call addr) { s with pc := p } with
    | .next t => runCalls rest t
    | .fault r => .fault r
    | .refused r => .refused r

/-- `n` returns: the `pc` each one loads, in order, and the state after the last. -/
def runReturns : Nat → State → List Word × State
  | 0, s => ([], s)
  | n + 1, s =>
    match exec .ret s with
    | .next t => (t.pc :: (runReturns n t).1, (runReturns n t).2)
    | .fault _ | .refused _ => ([], s)

/-! ## Reachable states -/

/-- What the core and the host can bring about from reset, in any order the spec allows (R16, R89 to R92). -/
inductive Reachable : State → Prop where
  | reset : Reachable State.reset
  | step {s t : State} : Reachable s → step s = .next t → Reachable t
  | host {s t : State} {m : HostMove} : Reachable s → s.hostMove m = some t → Reachable t

/-! ## The invariant -/

/-- The fault record tells what happened: its address and opcode are those of the fetch or instruction that faulted,
and the fault's condition holds (R17, R71, R78). -/
def FaultRecordTrue (s : State) : Prop :=
  match s.faultCause with
  | none => False
  | some .stackOverflow =>
    s.pc = s.faultPc + 2 ∧ s.fetchAt s.faultPc = some s.faultOpcode ∧ s.sp.val = 16 ∧
      ∃ addr, decode s.faultOpcode = .instr (.call addr)
  | some .stackUnderflow =>
    s.pc = s.faultPc + 2 ∧ s.fetchAt s.faultPc = some s.faultOpcode ∧ s.sp.val = 0 ∧ s.faultOpcode = 0x00EE#16
  | some .unknownOpcode =>
    s.pc = s.faultPc + 2 ∧ s.fetchAt s.faultPc = some s.faultOpcode ∧ ∃ why, decode s.faultOpcode = .illegal why
  | some .fetchOutOfBounds => s.pc = s.faultPc ∧ s.fetchAt s.faultPc = none ∧ s.faultOpcode = 0x0000#16

/-- The invariant of the core. -/
structure Inv (s : State) : Prop where
  /-- Memory is in canonical form. -/
  memory : s.mem.wf = true
  /-- `pc` takes the values 0 to 4098 (R12). -/
  pcRange : s.pc.toNat ≤ 4098
  /-- An outstanding return address is at most 4096 (R12, R14). -/
  returns : ∀ i : Fin 16, i.val < s.sp.val → (s.entry i).toNat ≤ 4096
  /-- A run always starts at 0x000 with an empty stack (R91). -/
  unstarted : s.status = .ready → s.pc = Config.entryPoint ∧ s.sp.val = 0
  /-- The fault record is written only by fault entry (R17). -/
  noRecord : s.status ≠ .faulted → s.faultCause = none ∧ s.faultPc = 0 ∧ s.faultOpcode = 0
  /-- In `Faulted` the record tells what happened (R78). -/
  record : s.status = .faulted → FaultRecordTrue s
  /-- In `Halted` the instruction last run was 0x0000 (R16, R51). -/
  haltedAt : s.status = .halted → s.fetchAt (s.pc - 2) = some 0x0000#16

/-! ## What a program cannot see (R15) -/

/-- The two states agree but for stack entries at or above `sp`, which are not outstanding. -/
def AgreeButHidden (s t : State) : Prop :=
  SameRegs s t ∧ t.pc = s.pc ∧ t.sp = s.sp ∧ (∀ i : Fin 16, i.val < s.sp.val → t.entry i = s.entry i) ∧
    SameMemory s t ∧ SameRun s t

/-- Two outcomes a program and the host cannot tell apart. -/
def OutcomesAgree : Host.Outcome State Fault Refusal → Host.Outcome State Fault Refusal → Prop
  | .next s, .next t => AgreeButHidden s t ∧ t.output = s.output
  | .fault a, .fault b => a = b
  | .refused a, .refused b => a = b
  | _, _ => False

end Sys2Proof.Machine
end

