-- ==== Sys2Proof/Certificates/Slice0/Obligations.lean ====
section
/-! DEFINITION. The statements for the provers. Each docstring names the rule of spec/ it formalises, or says that the
statement is derived. `exec` is entered with `pc = ia + 2` (R43): in the statements about `exec`, `s.pc` is the
advanced value and `s.pc - 2` is `ia`; in the statements about `step`, `s.pc` is `ia`. A statement with a clause that
rests on a point the spec marks as its own decision (92_eei_decisions.md) is derived, and its docstring names the
decision D<n>. -/

open Sys2Proof Sys2Proof.Machine

/-! ## Encoding and decoding -/

/-- Words written out from the patterns of R45, one of each format, and three that are no instruction (R47). -/
def Obligations.SpecWordsDecode : Prop :=
  decode 0x0000#16 = .instr .halt ∧ decode 0x00E0#16 = .instr .cls ∧ decode 0x00EE#16 = .instr .ret ∧
  decode 0x1ABC#16 = .instr (.jp 0xABC#12) ∧ decode 0x2300#16 = .instr (.call 0x300#12) ∧
  decode 0x332A#16 = .instr (.seImm 3 0x2A#8) ∧ decode 0x5120#16 = .instr (.seReg 1 2) ∧
  decode 0x612A#16 = .instr (.ldImm 1 0x2A#8) ∧ decode 0x8014#16 = .instr (.addReg 0 1) ∧
  decode 0x9999#16 = .illegal .topNibble ∧ decode 0x8125#16 = .illegal .aluMinor ∧
  decode 0x00E1#16 = .illegal .systemValue

/-- R37: the six fields of an opcode, as numbers, at the bits the table gives. -/
def Obligations.FieldsOfAnOpcode : Prop :=
  ∀ w : Opcode,
    (cField w).toNat = w.toNat / 4096 ∧ (xField w).val = w.toNat / 256 % 16 ∧ (yField w).val = w.toNat / 16 % 16 ∧
    (kkField w).toNat = w.toNat % 256 ∧ (nField w).toNat = w.toNat % 16 ∧ (addrField w).toNat = w.toNat % 4096

/-- R49's table: the opcode of each instruction as a sum of its fields. Derived (the mnemonics of R49 are notation). -/
def Obligations.EncodingsAreTheSpecSums : Prop :=
  ∀ i : Instr, (encode i).toNat = match i with
    | .halt => 0x0000
    | .cls => 0x00E0
    | .ret => 0x00EE
    | .jp addr => 0x1000 + addr.toNat
    | .call addr => 0x2000 + addr.toNat
    | .seImm x kk => 0x3000 + x.val * 256 + kk.toNat
    | .sneImm x kk => 0x4000 + x.val * 256 + kk.toNat
    | .seReg x y => 0x5000 + x.val * 256 + y.val * 16
    | .ldImm x kk => 0x6000 + x.val * 256 + kk.toNat
    | .addImm x kk => 0x7000 + x.val * 256 + kk.toNat
    | .ldReg x y => 0x8000 + x.val * 256 + y.val * 16
    | .orReg x y => 0x8001 + x.val * 256 + y.val * 16
    | .andReg x y => 0x8002 + x.val * 256 + y.val * 16
    | .xorReg x y => 0x8003 + x.val * 256 + y.val * 16
    | .addReg x y => 0x8004 + x.val * 256 + y.val * 16

/-- Every instruction, with every operand its fields admit, is well formed and is what its opcode decodes to.
Derived from R45 and R49. -/
def Obligations.DecodeOfEncode : Prop :=
  ∀ i : Instr, i.wellFormed = true ∧ decode (encode i) = .instr i

/-- The other direction: an opcode that decodes is the encoding of what it decodes to, so each instruction has one
opcode and no bit of an opcode is dropped. Derived from R45 and R49. -/
def Obligations.EncodeOfDecode : Prop :=
  ∀ (w : Opcode) (i : Instr), decode w = .instr i → encode i = w

/-- R46: no opcode matches two rows of R45, so the order in which a decoder tries the rows is not observable.
Derived: R46's count of the matching opcodes is left out. -/
def Obligations.NoOpcodeMatchesTwoRows : Prop :=
  ∀ (w : Opcode) (j k : Fin opcodeTable.length),
    opcodeTable[j].Selects w → opcodeTable[k].Selects w → j = k

/-- R47: the opcodes that are no instruction are exactly those of the four ranges. Derived: R47's counts are left
out, and the names of the four reasons are the model's. -/
def Obligations.IllegalOpcodesAreExactlyTheFourRanges : Prop :=
  ∀ w : Opcode,
    (decode w = .illegal .systemValue ↔
      0x0001 ≤ w.toNat ∧ w.toNat ≤ 0x0FFF ∧ w.toNat ≠ 0x00E0 ∧ w.toNat ≠ 0x00EE) ∧
    (decode w = .illegal .skipMinor ↔ 0x5000 ≤ w.toNat ∧ w.toNat ≤ 0x5FFF ∧ w.toNat % 16 ≠ 0) ∧
    (decode w = .illegal .aluMinor ↔ 0x8000 ≤ w.toNat ∧ w.toNat ≤ 0x8FFF ∧ 5 ≤ w.toNat % 16) ∧
    (decode w = .illegal .topNibble ↔ 0x9000 ≤ w.toNat)

/-! ## The instruction cycle -/

/-- R44: the step matches the full opcode against the rows of R45 (`opcode & mask = match`); the handler of the row
it matches runs, on the fields of the opcode, after the advance; if no row matches, the step raises UnknownOpcode. -/
def Obligations.StepRunsTheHandlerOfTheMatchingRow : Prop :=
  ∀ (s : State) (w : Opcode), s.status = .running → s.fetch = some w →
    (∀ r ∈ opcodeTable, w &&& r.mask = r.pattern → step s = exec (r.operands w) { s with pc := s.pc + 2 }) ∧
    ((∀ r ∈ opcodeTable, w &&& r.mask ≠ r.pattern) →
      ∃ t, step s = .next t ∧ t.status = .faulted ∧ t.faultCause = some .unknownOpcode)

/-- A step runs the decoded instruction: with the fetched opcode decoding to `i`, the step is `exec i` on the state
advanced by 2 (R40, R43). Derived: it says of R40 what concerns a legal opcode. -/
def Obligations.StepRunsTheDecodedInstruction : Prop :=
  ∀ (s : State) (w : Opcode) (i : Instr), s.status = .running → s.fetch = some w → decode w = .instr i →
    step s = exec i { s with pc := s.pc + 2 }

/-- The advance is made before dispatch and for every opcode that was fetched, 0x0000 and the illegal ones too, and
never wraps. Derived (R43; for 0x0000 and a faulting opcode it is the spec's decisions D7 and D6). -/
def Obligations.AdvanceBeforeDispatchNeverWraps : Prop :=
  ∀ (s : State) (w : Opcode), s.status = .running → s.fetch = some w →
    (s.pc + 2).toNat = s.pc.toNat + 2 ∧ s.pc.toNat + 2 ≤ 4096 ∧
    match decode w with
    | .instr i => step s = exec i { s with pc := s.pc + 2 }
    | .illegal _ => ∃ t, step s = .next t ∧ t.pc = s.pc + 2

/-- A fetch is big-endian, the byte at the lower address being the more significant (R24). It reads `mem[p]` and
`mem[p+1]` at any `p <= 4094`; above that it reads nothing (R23). Derived (R23, R24, R26; that an odd `p` is fetched
like any other is the spec's decision D3, log 13). -/
def Obligations.FetchIsBigEndian : Prop :=
  ∀ (s : State) (p : Word),
    (p.toNat ≤ 4094 → ∃ hi lo w, s.memRead p.toNat = some hi ∧ s.memRead (p.toNat + 1) = some lo ∧
      s.fetchAt p = some w ∧ w.toNat = hi.toNat * 256 + lo.toNat) ∧
    (4095 ≤ p.toNat → s.fetchAt p = none)

/-- The host's `withFetchWord` (log 4) is what it says: on canonical memory and with room at `pc`, the next step
fetches exactly that opcode, the decoder reads the same one, and nothing but the two bytes and the status changes. Derived. -/
def Obligations.WithFetchWordPlacesTheOpcode : Prop :=
  ∀ (s : State) (nbits w : Nat), s.mem.wf = true → s.pc.toNat ≤ 4094 →
    (s.withFetchWord nbits w).fetch = some (tableOpcode nbits w) ∧
    decodeTableWord nbits w = (decode (tableOpcode nbits w)).instr? ∧
    (s.withFetchWord nbits w).status = .running ∧ (s.withFetchWord nbits w).mem.wf = true ∧
    (∀ a, a ≠ s.pc.toNat → a ≠ s.pc.toNat + 1 → (s.withFetchWord nbits w).memRead a = s.memRead a) ∧
    SameRegs s (s.withFetchWord nbits w) ∧ SameStack s (s.withFetchWord nbits w) ∧
    (s.withFetchWord nbits w).pc = s.pc ∧ SameFaultRecord s (s.withFetchWord nbits w)

/-! ## System instructions -/

/-- HALT sets the status to `Halted` and writes nothing else; `pc` keeps the advanced value. Derived (R51; the value
of `pc` is the spec's decision D7). -/
def Obligations.HaltEndsTheRunAndWritesNothingElse : Prop :=
  decode 0x0000#16 = .instr .halt ∧
  ∀ s : State, ∃ t, exec .halt s = .next t ∧ t.status = .halted ∧
    t.pc = s.pc ∧ SameRegs s t ∧ SameStack s t ∧ SameMemory s t ∧ SameFaultRecord s t

/-- R52: CLS does nothing but the advance. -/
def Obligations.ClsChangesNothing : Prop :=
  decode 0x00E0#16 = .instr .cls ∧ ∀ s : State, exec .cls s = .next s

/-! ## Control transfer -/

/-- With an entry outstanding RET pops it into `pc` and the entry keeps its value; with none it raises StackUnderflow
and nothing but the advance has happened. Derived (R54; that the popped entry keeps its value is the spec's decision
D12). -/
def Obligations.RetPopsOrUnderflows : Prop :=
  decode 0x00EE#16 = .instr .ret ∧
  ∀ s : State,
    (∀ j : Fin 16, s.sp.val = j.val + 1 →
      ∃ t, exec .ret s = .next t ∧ t.pc = s.entry j ∧ t.sp.val = j.val ∧ (∀ k, t.entry k = s.entry k) ∧
        SameRegs s t ∧ SameMemory s t ∧ SameRun s t) ∧
    (s.sp.val = 0 →
      ∃ t, exec .ret s = .next t ∧ FaultEntered .stackUnderflow (s.pc - 2) 0x00EE#16 s t ∧ t.pc = s.pc)

/-- R55: JP writes `pc` with the 12-bit address, zero-extended, and nothing else. -/
def Obligations.JpLoadsItsAddress : Prop :=
  ∀ addr : Addr, decode (BitVec.ofNat 16 (0x1000 + addr.toNat)) = .instr (.jp addr) ∧
    ∀ s : State, ∃ t, exec (.jp addr) s = .next t ∧ t.pc.toNat = addr.toNat ∧ OnlyPcChanges s t

/-- R56: with a slot free CALL pushes the advanced `pc` and jumps; with none it raises StackOverflow and nothing but
the advance has happened. -/
def Obligations.CallPushesOrOverflows : Prop :=
  ∀ addr : Addr, decode (BitVec.ofNat 16 (0x2000 + addr.toNat)) = .instr (.call addr) ∧
    ∀ s : State,
      (∀ j : Fin 16, s.sp.val = j.val →
        ∃ t, exec (.call addr) s = .next t ∧ t.entry j = s.pc ∧ t.sp.val = j.val + 1 ∧ t.pc.toNat = addr.toNat ∧
          (∀ k, k ≠ j → t.entry k = s.entry k) ∧ SameRegs s t ∧ SameMemory s t ∧ SameRun s t) ∧
      (s.sp.val = 16 →
        ∃ t, exec (.call addr) s = .next t ∧ t.pc = s.pc ∧
          FaultEntered .stackOverflow (s.pc - 2) (BitVec.ofNat 16 (0x2000 + addr.toNat)) s t)

/-- `n` calls that fit, with no return between them, followed by `n` returns, load the pushed addresses in
last-in first-out order and leave `sp` at its value before the calls; a call with 16 entries held overflows, a return
with none underflows. Derived (R57, which the spec derives from R54 and R56). -/
def Obligations.CallsAndReturnsNest : Prop :=
  (∀ (calls : List (Word × Addr)) (s : State), s.sp.val + calls.length ≤ 16 →
    ∃ t, runCalls calls s = .next t ∧ t.sp.val = s.sp.val + calls.length ∧
      (runReturns calls.length t).1 = (calls.map Prod.fst).reverse ∧
      (runReturns calls.length t).2.sp = s.sp ∧ (runReturns calls.length t).2.status = s.status) ∧
  (∀ (addr : Addr) (s : State), s.sp.val = 16 →
    ∃ t, exec (.call addr) s = .next t ∧ t.status = .faulted ∧ t.faultCause = some .stackOverflow) ∧
  (∀ s : State, s.sp.val = 0 →
    ∃ t, exec .ret s = .next t ∧ t.status = .faulted ∧ t.faultCause = some .stackUnderflow)

/-! ## Conditional skips -/

/-- R58, at the level of a step: every skip instruction advances `pc` by exactly 4 when its condition holds and by
exactly 2 when it does not, without wrapping; it writes nothing but `pc`; and what the rest of memory holds, the
skipped bytes among it, has no effect. -/
def Obligations.SkipsAdvanceByFourOrTwo : Prop :=
  ∀ (s : State) (w : Opcode), s.status = .running → s.fetch = some w →
    ∀ c : Prop, (∃ x kk, decode w = .instr (.seImm x kk) ∧ (c ↔ s.reg x = kk)) ∨
      (∃ x kk, decode w = .instr (.sneImm x kk) ∧ (c ↔ s.reg x ≠ kk)) ∨
      (∃ x y, decode w = .instr (.seReg x y) ∧ (c ↔ s.reg x = s.reg y)) →
    ∃ t, step s = .next t ∧ (c → t.pc.toNat = s.pc.toNat + 4) ∧ (¬c → t.pc.toNat = s.pc.toNat + 2) ∧
      OnlyPcChanges s t ∧
      ∀ m : Memory, { s with mem := m }.fetch = some w →
        ∃ u, step { s with mem := m } = .next u ∧ u.pc = t.pc ∧ OnlyPcChanges { s with mem := m } u

/-- R59: SE Vx, kk skips exactly when the register equals the immediate, and writes nothing but `pc`. -/
def Obligations.SeImmediateSkipsOnEqual : Prop :=
  ∀ (x : RegIdx) (kk : Byte),
    decode (BitVec.ofNat 16 (0x3000 + x.val * 256 + kk.toNat)) = .instr (.seImm x kk) ∧
    ∀ s : State, ∃ t, exec (.seImm x kk) s = .next t ∧
      (s.reg x = kk → t.pc = s.pc + 2) ∧ (s.reg x ≠ kk → t.pc = s.pc) ∧ OnlyPcChanges s t

/-- R60: SNE Vx, kk skips exactly when the register does not equal the immediate, and writes nothing but `pc`. -/
def Obligations.SneImmediateSkipsOnUnequal : Prop :=
  ∀ (x : RegIdx) (kk : Byte),
    decode (BitVec.ofNat 16 (0x4000 + x.val * 256 + kk.toNat)) = .instr (.sneImm x kk) ∧
    ∀ s : State, ∃ t, exec (.sneImm x kk) s = .next t ∧
      (s.reg x ≠ kk → t.pc = s.pc + 2) ∧ (s.reg x = kk → t.pc = s.pc) ∧ OnlyPcChanges s t

/-- For every register value and immediate, exactly one of SE and SNE skips. Derived (the corner case of R60). -/
def Obligations.ExactlyOneOfSeAndSneSkips : Prop :=
  ∀ (x : RegIdx) (kk : Byte) (s : State), ∃ t u, exec (.seImm x kk) s = .next t ∧ exec (.sneImm x kk) s = .next u ∧
    ((t.pc = s.pc + 2 ∧ u.pc = s.pc) ∨ (t.pc = s.pc ∧ u.pc = s.pc + 2))

/-- R61: the register values are compared, never the field values; in particular `x = y` always skips. -/
def Obligations.SeRegisterSkipsOnEqualValues : Prop :=
  ∀ x y : RegIdx,
    decode (BitVec.ofNat 16 (0x5000 + x.val * 256 + y.val * 16)) = .instr (.seReg x y) ∧
    (∀ n : Nat, 1 ≤ n → n ≤ 15 →
      decode (BitVec.ofNat 16 (0x5000 + x.val * 256 + y.val * 16 + n)) = .illegal .skipMinor) ∧
    ∀ s : State, ∃ t, exec (.seReg x y) s = .next t ∧
      (s.reg x = s.reg y → t.pc = s.pc + 2) ∧ (s.reg x ≠ s.reg y → t.pc = s.pc) ∧ OnlyPcChanges s t

/-! ## Register-immediate instructions -/

/-- R62: LD Vx, kk writes the immediate to its register and nothing else. -/
def Obligations.LoadImmediateWritesItsRegister : Prop :=
  ∀ (x : RegIdx) (kk : Byte),
    decode (BitVec.ofNat 16 (0x6000 + x.val * 256 + kk.toNat)) = .instr (.ldImm x kk) ∧
    ∀ s : State, ∃ t, exec (.ldImm x kk) s = .next t ∧ t.reg x = kk ∧ OnlyRegsChange [x] s t

/-- The sum wraps, nothing faults, no carry is written (VF is in the frame unless it is the destination), and loading
`a` then adding `b` leaves `(a + b) mod 256`. Derived (R63; that VF is not written is the spec's decision D11). -/
def Obligations.AddImmediateWrapsWithoutCarry : Prop :=
  ∀ (x : RegIdx) (kk : Byte),
    decode (BitVec.ofNat 16 (0x7000 + x.val * 256 + kk.toNat)) = .instr (.addImm x kk) ∧
    (∀ s : State, ∃ t, exec (.addImm x kk) s = .next t ∧
      (t.reg x).toNat = ((s.reg x).toNat + kk.toNat) % 256 ∧ OnlyRegsChange [x] s t) ∧
    ∀ (a : Byte) (s : State), ∃ t u, exec (.ldImm x a) s = .next t ∧ exec (.addImm x kk) t = .next u ∧
      (u.reg x).toNat = (a.toNat + kk.toNat) % 256 ∧ OnlyRegsChange [x] s u

/-! ## Register-register instructions -/

/-- R65: LD Vx, Vy copies the register's value and writes nothing else. -/
def Obligations.CopyWritesItsRegister : Prop :=
  ∀ x y : RegIdx,
    decode (BitVec.ofNat 16 (0x8000 + x.val * 256 + y.val * 16)) = .instr (.ldReg x y) ∧
    ∀ s : State, ∃ t, exec (.ldReg x y) s = .next t ∧ t.reg x = s.reg y ∧ OnlyRegsChange [x] s t

/-- OR, bit by bit; VF is not cleared. Derived (R66, R64; that VF keeps its value is the spec's decision D11). -/
def Obligations.OrCombinesBitByBit : Prop :=
  ∀ x y : RegIdx,
    decode (BitVec.ofNat 16 (0x8001 + x.val * 256 + y.val * 16)) = .instr (.orReg x y) ∧
    ∀ s : State, ∃ t, exec (.orReg x y) s = .next t ∧ OnlyRegsChange [x] s t ∧
      ∀ b < 8, (t.reg x).getLsbD b = ((s.reg x).getLsbD b || (s.reg y).getLsbD b)

/-- AND, bit by bit; VF is not cleared. Derived (R67, R64; that VF keeps its value is the spec's decision D11). -/
def Obligations.AndCombinesBitByBit : Prop :=
  ∀ x y : RegIdx,
    decode (BitVec.ofNat 16 (0x8002 + x.val * 256 + y.val * 16)) = .instr (.andReg x y) ∧
    ∀ s : State, ∃ t, exec (.andReg x y) s = .next t ∧ OnlyRegsChange [x] s t ∧
      ∀ b < 8, (t.reg x).getLsbD b = ((s.reg x).getLsbD b && (s.reg y).getLsbD b)

/-- XOR, bit by bit; VF is not cleared. Derived (R68, R64; that VF keeps its value is the spec's decision D11). -/
def Obligations.XorCombinesBitByBit : Prop :=
  ∀ x y : RegIdx,
    decode (BitVec.ofNat 16 (0x8003 + x.val * 256 + y.val * 16)) = .instr (.xorReg x y) ∧
    ∀ s : State, ∃ t, exec (.xorReg x y) s = .next t ∧ OnlyRegsChange [x] s t ∧
      ∀ b < 8, (t.reg x).getLsbD b = ((s.reg x).getLsbD b ^^ (s.reg y).getLsbD b)

/-- VF is 1 if and only if the unsigned sum of the operands as read exceeds 255, else 0, whatever `x` and `y` are; and
`x[x]` is the sum modulo 256 unless `x = 0xF`, when VF keeps the carry and the sum is lost. Derived (R69; the order of
the two writes when `x = 0xF` is the spec's decision D10). -/
def Obligations.AddRegisterWrapsAndWritesCarryLast : Prop :=
  ∀ x y : RegIdx,
    decode (BitVec.ofNat 16 (0x8004 + x.val * 256 + y.val * 16)) = .instr (.addReg x y) ∧
    ∀ s : State, ∃ t, exec (.addReg x y) s = .next t ∧
      (t.reg 15).toNat = (if (s.reg x).toNat + (s.reg y).toNat > 255 then 1 else 0) ∧
      (x ≠ 15 → (t.reg x).toNat = ((s.reg x).toNat + (s.reg y).toNat) % 256) ∧
      OnlyRegsChange [x, 15] s t

/-! ## Rules about the whole machine -/

/-- A step writes no register but the destination of the instruction it runs, and VF is one only of the register
add: over all instructions and all faults. Derived from R9, R10, R64 and R78 (the spec's decisions D6 and D11). -/
def Obligations.OnlyDestinationRegistersChange : Prop :=
  ∀ s t : State, step s = .next t → ∀ r : RegIdx,
    (∀ w i, s.fetch = some w → decode w = .instr i → r ∉ destinations i) → t.reg r = s.reg r

/-- `sp` and the stack entries change only in CALL and RET: CALL with a slot free moves `sp` up by 1 and writes the
advanced `pc` to the entry it named, RET with one outstanding moves `sp` down by 1 and leaves every entry, the popped
one too, and every other step leaves both alone. Derived (R13, R14, R15; that the popped entry keeps its value is the
spec's decision D12, log 13). -/
def Obligations.StackChangesOnlyInCallAndReturn : Prop :=
  ∀ s t : State, step s = .next t → ∃ called returned : Prop,
    (called ↔ s.sp.val < 16 ∧ ∃ w addr, s.fetch = some w ∧ decode w = .instr (.call addr)) ∧
    (returned ↔ 0 < s.sp.val ∧ ∃ w, s.fetch = some w ∧ decode w = .instr .ret) ∧
    (called → t.sp.val = s.sp.val + 1) ∧ (returned → t.sp.val + 1 = s.sp.val) ∧
    (¬called → ¬returned → t.sp = s.sp) ∧
    (∀ k, called → k.val = s.sp.val → t.entry k = s.pc + 2) ∧
    (∀ k, (called → k.val ≠ s.sp.val) → t.entry k = s.entry k)

/-- No step writes memory; the host writes a byte only while the status is Ready. Derived (R25; when the host may
write is the spec's decision D9, and the model's reading is log 5). -/
def Obligations.MemoryIsWrittenOnlyByTheHostInReady : Prop :=
  (∀ s t : State, step s = .next t → ∀ a, t.memRead a = s.memRead a) ∧
  ∀ (s t : State) (a : Nat) (v : Byte), s.hostMove (.writeByte a v) = some t → s.status = .ready ∧ a ≤ 0xFFF

/-- R30: over a run of any number of steps, a fetch at any address gives what it gave when the run started.
Derived from R30 and R33. -/
def Obligations.FetchIsTheSameAllThroughARun : Prop :=
  ∀ (k : Nat) (s t : State), Sys2Proof.core.run k s = .next t → ∀ p : Word, t.fetchAt p = s.fetchAt p

/-- The state after reset: everything zero, status `Ready`, no fault recorded. Derived (R90; the reset values of the
status and of the fault record are the spec's decisions D8 and D5). -/
def Obligations.ResetLeavesEverythingZero : Prop :=
  (∀ r, State.reset.reg r = 0x00#8) ∧ State.reset.pc = 0x0000#16 ∧ State.reset.sp.val = 0 ∧
  (∀ k, State.reset.entry k = 0x0000#16) ∧ (∀ a, a ≤ 0xFFF → State.reset.memRead a = some 0x00#8) ∧
  State.reset.status = .ready ∧ causeCode State.reset.faultCause = 0 ∧ State.reset.faultPc = 0x0000#16 ∧
  State.reset.faultOpcode = 0x0000#16

/-! ## Faults -/

/-- The codes of R71, which the statements may use only as distinct (D4, I9). Derived. -/
def Obligations.CauseCodesAreDistinct : Prop :=
  ∀ f g : Option FaultCause, causeCode f = causeCode g → f = g

/-- R72: a step at a CALL with the stack full raises StackOverflow, before the push, distinguishably from a halt. -/
def Obligations.CallOnFullStackFaults : Prop :=
  ∀ (s : State) (w : Opcode) (addr : Addr), s.status = .running → s.fetch = some w → decode w = .instr (.call addr) →
    s.sp.val = 16 →
    ∃ t, step s = .next t ∧ t.status = .faulted ∧ t.status ≠ .halted ∧ t.faultCause = some .stackOverflow ∧
      SameStack s t

/-- R73: a step at a RET with the stack empty raises StackUnderflow, before the pop, distinguishably from a halt. -/
def Obligations.ReturnOnEmptyStackFaults : Prop :=
  ∀ s : State, s.status = .running → s.fetch = some 0x00EE#16 → s.sp.val = 0 →
    ∃ t, step s = .next t ∧ t.status = .faulted ∧ t.status ≠ .halted ∧ t.faultCause = some .stackUnderflow ∧
      SameStack s t

/-- R74: a step at any opcode that is no instruction raises UnknownOpcode and records the opcode. -/
def Obligations.UnknownOpcodeFaultsAndIsReported : Prop :=
  ∀ (s : State) (w : Opcode), s.status = .running → s.fetch = some w → (∀ i, decode w ≠ .instr i) →
    ∃ t, step s = .next t ∧ t.status = .faulted ∧ t.faultCause = some .unknownOpcode ∧ t.faultOpcode = w

/-- A step at `pc >= 4095` raises FetchOutOfBounds before the advance, whatever memory holds. Derived (R75; the record
it leaves is the spec's decision D5). -/
def Obligations.FetchPastTheEndFaults : Prop :=
  ∀ s : State, s.status = .running → 4095 ≤ s.pc.toNat →
    ∃ t, step s = .next t ∧ FaultEntered .fetchOutOfBounds s.pc 0x0000#16 s t ∧ t.pc = s.pc

/-- Every fault is precise. A step that ends in `Faulted` enters it with one of the four causes and the address
it started from, and writes no register, stack entry, `sp` or memory byte; `pc` is advanced but for the fetch fault,
whose opcode field is 0; for the others the opcode recorded is the one fetched. Derived (R71, R78; the codes, the
record and the state left are the spec's decisions D4, D5 and D6). -/
def Obligations.EveryFaultIsPrecise : Prop :=
  ∀ s t : State, step s = .next t → t.status = .faulted →
    ∃ (f : FaultCause) (o : Opcode), FaultEntered f s.pc o s t ∧ 1 ≤ causeCode t.faultCause ∧
      causeCode t.faultCause ≤ 4 ∧
      ((f = .fetchOutOfBounds ∧ t.pc = s.pc ∧ o = 0x0000#16 ∧ s.fetch = none) ∨
       (f ≠ .fetchOutOfBounds ∧ t.pc = s.pc + 2 ∧ s.fetch = some o))

/-- Every step of the running core ends in `Running`, `Halted` or `Faulted`: in `Halted` exactly at the opcode
0x0000, in `Faulted` exactly under one of the four conditions (R76, R77, R94), so no instruction stops the model. Derived. -/
def Obligations.StepsEndTheRunExactlyAtHaltOrFault : Prop :=
  ∀ s : State, s.status = .running → ∃ (t : State) (faults : Prop), step s = .next t ∧
    (faults ↔ s.fetch = none ∨ (∃ w why, s.fetch = some w ∧ decode w = .illegal why) ∨
      (∃ w addr, s.fetch = some w ∧ decode w = .instr (.call addr) ∧ s.sp.val = 16) ∨
      (s.fetch = some 0x00EE#16 ∧ s.sp.val = 0)) ∧
    (t.status = .faulted ↔ faults) ∧ (t.status = .halted ↔ s.fetch = some 0x0000#16) ∧
    (t.status = .running ↔ ¬faults ∧ s.fetch ≠ some 0x0000#16)

/-- A jump to itself keeps stepping for ever: there is no step limit (R55, R94, I5). Derived. -/
def Obligations.JumpToItselfNeverEnds : Prop :=
  ∀ (s : State) (w : Opcode) (addr : Addr), s.status = .running → s.fetch = some w → decode w = .instr (.jp addr) →
    s.pc.toNat = addr.toNat → ∀ k, Sys2Proof.core.run k s = .next s

/-- The machine is constructed `Ready`; steps happen only in `Running`; a step enters `Halted` at a 0x0000 opcode
and `Faulted` at a fault; and neither a step nor a host move but reset leaves `Halted` or `Faulted`. Derived (R16; the statuses and their lifecycle are the spec's decision D8,
and that the model stops by name where there is no step is log 1). -/
def Obligations.StepsHappenOnlyInRunning : Prop :=
  State.reset.status = .ready ∧
  (∀ s : State, (∃ t, step s = .next t) ↔ s.status = .running) ∧
  (∀ s t : State, step s = .next t → t.status ≠ .ready ∧ (t.status = .halted ↔ s.fetch = some 0x0000#16) ∧
    (t.status = .faulted → t.faultCause ≠ none)) ∧
  ∀ (s t : State) (m : HostMove), s.status = .halted ∨ s.status = .faulted → s.hostMove m = some t →
    m ≠ .reset → t = s

/-! ## The host -/

/-- While `Ready`, and only then, the host writes any memory byte and any general register, and each write
changes that one place alone; no move but reset writes `pc`, `sp`, the stack or the fault record. The memory is taken
in its canonical form, which `InvAtReset`, `InvKeptByStep` and `InvKeptByHost` say every reachable state has. Derived (R91; the interface is the spec's decision D9). -/
def Obligations.HostWritesOnePlaceInReady : Prop :=
  (∀ (s : State) (a : Nat) (v : Byte), s.mem.wf = true → s.status = .ready → a ≤ 0xFFF →
    ∃ t, s.hostMove (.writeByte a v) = some t ∧ t.memRead a = some v ∧ t.mem.wf = true ∧
      (∀ b, b ≠ a → t.memRead b = s.memRead b) ∧ SameRegs s t ∧ t.pc = s.pc ∧ SameStack s t ∧ SameRun s t) ∧
  (∀ (s : State) (i : RegIdx) (v : Byte), s.status = .ready →
    ∃ t, s.hostMove (.writeReg i v) = some t ∧ t.reg i = v ∧ OnlyRegsChange [i] s t) ∧
  (∀ (s : State) (a : Nat) (i : RegIdx) (v : Byte), s.status ≠ .ready →
    s.hostMove (.writeByte a v) = none ∧ s.hostMove (.writeReg i v) = none) ∧
  (∀ (s : State) (a : Nat) (v : Byte), 0xFFF < a → s.hostMove (.writeByte a v) = none) ∧
  ∀ (s t : State) (m : HostMove), s.hostMove m = some t → m ≠ .reset →
    t.pc = s.pc ∧ SameStack s t ∧ SameFaultRecord s t ∧ (m ≠ .start → t.status = s.status)

/-- The host start moves `Ready` to `Running` and changes nothing else; in any other status it does nothing.
While `Running` the core steps, to a state that is `Running`, `Halted` or `Faulted`, and
the host has no move (but a start, which does nothing) and reads nothing; reset is the subject of R89. Derived (R92;
that a start outside `Ready` does nothing is the spec's decision D8, that the host has no move while `Running` its
decision D9, and the model's reading of both is log 5). -/
def Obligations.HostStartsTheRun : Prop :=
  (∀ s : State, s.status = .ready → ∃ t, s.hostMove .start = some t ∧ t.status = .running ∧
    SameRegs s t ∧ t.pc = s.pc ∧ SameStack s t ∧ SameMemory s t ∧ SameFaultRecord s t) ∧
  (∀ s : State, s.status ≠ .ready → s.hostMove .start = some s) ∧
  (∀ s : State, s.status = .running → ∃ t, step s = .next t ∧
    (t.status = .running ∨ t.status = .halted ∨ t.status = .faulted)) ∧
  ∀ (s t : State) (m : HostMove), s.status = .running → m ≠ .reset → s.hostMove m = some t →
    t = s ∧ s.output = none

/-- In `Halted` and `Faulted`, and only then, the host reads the status, the fault record and every general
register; states that differ in `pc`, `sp`, the stack or memory alone give the same output. Derived
(R93; the output of a faulted run is the spec's decision D9). -/
def Obligations.HostReadsTheRegistersAtTheEnd : Prop :=
  (∀ s : State, s.status = .halted ∨ s.status = .faulted → ∃ o, s.output = some o ∧ o.status = s.status ∧
    o.faultCause = s.faultCause ∧ o.faultPc = s.faultPc ∧ o.faultOpcode = s.faultOpcode ∧
    ∀ r : RegIdx, o.regs[r.val] = s.reg r) ∧
  (∀ s : State, s.status ≠ .halted → s.status ≠ .faulted → s.output = none) ∧
  ∀ s t : State, SameRegs s t → SameRun s t → t.output = s.output

/-- Reset is the only way out of `Halted` and `Faulted`, and it is machine construction. Derived
(R89, the spec's decision D8; that a running core cannot be reset is the model's reading of R92, log 5, and that a
`Ready` one can be is the model's choice, log 14). -/
def Obligations.ResetIsTheOnlyWayOut : Prop :=
  (∀ s : State, s.status ≠ .running → s.hostMove .reset = some State.reset) ∧
  ∀ (s t : State) (m : HostMove), s.status = .halted ∨ s.status = .faulted → s.hostMove m = some t →
    t.status ≠ s.status → t = State.reset

/-! ## Invariants and what a program cannot see -/

/-- The invariant holds after reset. Derived (R90). -/
def Obligations.InvAtReset : Prop := Inv State.reset

/-- Every step keeps the invariant: canonical memory, `pc` within 0 to 4098 (R12), outstanding return addresses at
most 4096, a fault record written only by faults and telling what happened (R17, R78), `Halted` only after 0x0000. Derived. -/
def Obligations.InvKeptByStep : Prop :=
  ∀ s t : State, Inv s → step s = .next t → Inv t

/-- Every host move keeps the invariant. Derived (R91, R92). -/
def Obligations.InvKeptByHost : Prop :=
  ∀ (s t : State) (m : HostMove), Inv s → s.hostMove m = some t → Inv t

/-- In every state that the core and the host can bring about, `pc` is at most 4098 (R12) and, in `Faulted`, the
record tells what happened: memory at `fault_pc` still holds the opcode recorded, and the cause's condition holds.
Derived (R12, R17, R71). -/
def Obligations.ReachableFaultRecordsAreTrue : Prop :=
  ∀ s : State, Reachable s → s.pc.toNat ≤ 4098 ∧ s.mem.wf = true ∧ (s.status = .faulted → FaultRecordTrue s)

/-- R15: stack entries at or above `sp` are hidden. Two states that differ only there give runs that neither the
program nor the host can tell apart, for any number of steps. Derived (R15, R93). -/
def Obligations.HiddenStackEntriesAreUnobservable : Prop :=
  ∀ (k : Nat) (s t : State), AgreeButHidden s t → OutcomesAgree (Sys2Proof.core.run k s) (Sys2Proof.core.run k t)
end

