-- ==== Sys2Proof/Laws/Decode.lean ====
section
/-! SUPPORT. The fields of an opcode as numbers, the words the formats build, and what each field of a built word is. -/

namespace Sys2Proof

/-- Every operand's type is as wide as its field, so every instruction is well formed (log 8). -/
theorem Instr.wellFormed_all (i : Instr) : i.wellFormed = true := by
  cases i <;> simp [Instr.wellFormed] <;> omega

/-! ### Fields as numbers (R37) -/

theorem cField_toNat (w : Opcode) : (cField w).toNat = w.toNat / 4096 % 16 := by
  simp [cField, Nat.shiftRight_eq_div_pow]

theorem xField_val (w : Opcode) : (xField w).val = w.toNat / 256 % 16 := by
  simp [xField, Nat.shiftRight_eq_div_pow]

theorem yField_val (w : Opcode) : (yField w).val = w.toNat / 16 % 16 := by
  simp [yField, Nat.shiftRight_eq_div_pow]

theorem kkField_toNat (w : Opcode) : (kkField w).toNat = w.toNat % 256 := by
  simp [kkField]

theorem nField_toNat (w : Opcode) : (nField w).toNat = w.toNat % 16 := by
  simp [nField]

theorem addrField_toNat (w : Opcode) : (addrField w).toNat = w.toNat % 4096 := by
  simp [addrField]

/-! ### Built words as numbers (R49) -/

theorem append_toNat {m n : Nat} (a : BitVec m) (b : BitVec n) : (a ++ b).toNat = a.toNat * 2 ^ n + b.toNat := by
  rw [BitVec.toNat_append, Nat.shiftLeft_eq, Nat.mul_comm, Nat.two_pow_add_eq_or_of_lt b.isLt]

@[simp] theorem regBits_toNat (r : RegIdx) : (regBits r).toNat = r.val := rfl

theorem wordA_toNat (c : BitVec 4) (addr : Addr) : (wordA c addr).toNat = c.toNat * 4096 + addr.toNat :=
  append_toNat c addr

theorem wordXK_toNat (c : BitVec 4) (x : RegIdx) (kk : Byte) :
    (wordXK c x kk).toNat = c.toNat * 4096 + x.val * 256 + kk.toNat := by
  have outer : (wordXK c x kk).toNat = (c ++ regBits x).toNat * 2 ^ 8 + kk.toNat := append_toNat _ kk
  have inner : (c ++ regBits x).toNat = c.toNat * 2 ^ 4 + x.val := append_toNat c (regBits x)
  rw [outer, inner]
  omega

theorem wordXY_toNat (c : BitVec 4) (x y : RegIdx) (n : BitVec 4) :
    (wordXY c x y n).toNat = c.toNat * 4096 + x.val * 256 + y.val * 16 + n.toNat := by
  have outer : (wordXY c x y n).toNat = (c ++ regBits x).toNat * 2 ^ 8 + (regBits y ++ n).toNat := append_toNat _ _
  have left : (c ++ regBits x).toNat = c.toNat * 2 ^ 4 + x.val := append_toNat c (regBits x)
  have right : (regBits y ++ n).toNat = y.val * 2 ^ 4 + n.toNat := append_toNat (regBits y) n
  rw [outer, left, right]
  omega

/-! ### The fields of a built word -/

section fields
variable (c n : BitVec 4) (x y : RegIdx) (kk : Byte) (addr : Addr)

theorem cField_wordA : cField (wordA c addr) = c :=
  BitVec.eq_of_toNat_eq (by rw [cField_toNat, wordA_toNat]; omega)

theorem addrField_wordA : addrField (wordA c addr) = addr :=
  BitVec.eq_of_toNat_eq (by rw [addrField_toNat, wordA_toNat]; omega)

theorem cField_wordXK : cField (wordXK c x kk) = c :=
  BitVec.eq_of_toNat_eq (by rw [cField_toNat, wordXK_toNat]; omega)

theorem xField_wordXK : xField (wordXK c x kk) = x :=
  Fin.ext (by rw [xField_val, wordXK_toNat]; omega)

theorem kkField_wordXK : kkField (wordXK c x kk) = kk :=
  BitVec.eq_of_toNat_eq (by rw [kkField_toNat, wordXK_toNat]; omega)

theorem cField_wordXY : cField (wordXY c x y n) = c :=
  BitVec.eq_of_toNat_eq (by rw [cField_toNat, wordXY_toNat]; omega)

theorem xField_wordXY : xField (wordXY c x y n) = x :=
  Fin.ext (by rw [xField_val, wordXY_toNat]; omega)

theorem yField_wordXY : yField (wordXY c x y n) = y :=
  Fin.ext (by rw [yField_val, wordXY_toNat]; omega)

theorem nField_wordXY : nField (wordXY c x y n) = n :=
  BitVec.eq_of_toNat_eq (by rw [nField_toNat, wordXY_toNat]; omega)

end fields

/-! ### The masks of the opcode map (R45) -/

theorem and_full (w : Opcode) : w &&& 0xFFFF#16 = w := BitVec.and_allOnes

/-- The mask 0xF000 keeps the top nibble. -/
theorem and_top (w : Opcode) : w &&& 0xF000#16 = cField w ++ 0#12 := by
  ext i hi
  rw [BitVec.getElem_append]
  interval_cases i <;> simp [cField]

/-- The mask 0xF00F keeps the top nibble and the minor opcode. -/
theorem and_top_low (w : Opcode) : w &&& 0xF00F#16 = cField w ++ (0#8 ++ nField w) := by
  apply BitVec.eq_of_getLsbD_eq
  intro i hi
  simp only [BitVec.getLsbD_and, BitVec.getLsbD_append, cField, nField, BitVec.getLsbD_extractLsb']
  interval_cases i <;> simp

theorem and_top_toNat (w : Opcode) : (w &&& 0xF000#16).toNat = w.toNat / 4096 * 4096 := by
  have top : (cField w ++ 0#12).toNat = (cField w).toNat * 2 ^ 12 + 0 := append_toNat _ 0#12
  rw [and_top, top, cField_toNat]
  omega

theorem and_top_low_toNat (w : Opcode) : (w &&& 0xF00F#16).toNat = w.toNat / 4096 * 4096 + w.toNat % 16 := by
  have outer : (cField w ++ (0#8 ++ nField w)).toNat = (cField w).toNat * 2 ^ 12 + (0#8 ++ nField w).toNat :=
    append_toNat _ _
  have low : (0#8 ++ nField w).toNat = 0 * 2 ^ 4 + (nField w).toNat := append_toNat 0#8 (nField w)
  rw [and_top_low, outer, low, cField_toNat, nField_toNat]
  omega

theorem selects_top_iff (w p : Opcode) : w &&& 0xF000#16 = p ↔ w.toNat / 4096 * 4096 = p.toNat := by
  rw [← BitVec.toNat_inj, and_top_toNat]

theorem selects_top_low_iff (w p : Opcode) :
    w &&& 0xF00F#16 = p ↔ w.toNat / 4096 * 4096 + w.toNat % 16 = p.toNat := by
  rw [← BitVec.toNat_inj, and_top_low_toNat]

/-- The two bytes of an opcode make it up again (R24). -/
theorem opcodeOfBytes_split (w : Opcode) : opcodeOfBytes (hiByte w) (loByte w) = w := by
  apply BitVec.eq_of_toNat_eq
  rw [opcodeOfBytes, append_toNat]
  simp [hiByte, loByte, Nat.shiftRight_eq_div_pow]
  omega

end Sys2Proof
end

