-- ==== Sys2Proof/Laws/State.lean ====
section
/-! SUPPORT. What each field and each view of the state is after each update, one lemma each, so that no proof
unfolds a record update. -/

namespace Sys2Proof.Machine

variable (s : State)

/-! ### `setReg` -/

@[simp] theorem State.setReg_regs (i : RegIdx) (v : Byte) : (s.setReg i v).regs = s.regs.set i.val v i.isLt := rfl
@[simp] theorem State.setReg_pc (i : RegIdx) (v : Byte) : (s.setReg i v).pc = s.pc := rfl
@[simp] theorem State.setReg_stack (i : RegIdx) (v : Byte) : (s.setReg i v).stack = s.stack := rfl
@[simp] theorem State.setReg_sp (i : RegIdx) (v : Byte) : (s.setReg i v).sp = s.sp := rfl
@[simp] theorem State.setReg_mem (i : RegIdx) (v : Byte) : (s.setReg i v).mem = s.mem := rfl
@[simp] theorem State.setReg_status (i : RegIdx) (v : Byte) : (s.setReg i v).status = s.status := rfl
@[simp] theorem State.setReg_faultCause (i : RegIdx) (v : Byte) : (s.setReg i v).faultCause = s.faultCause := rfl
@[simp] theorem State.setReg_faultPc (i : RegIdx) (v : Byte) : (s.setReg i v).faultPc = s.faultPc := rfl
@[simp] theorem State.setReg_faultOpcode (i : RegIdx) (v : Byte) : (s.setReg i v).faultOpcode = s.faultOpcode := rfl
@[simp] theorem State.setReg_entry (i : RegIdx) (v : Byte) (j : Fin 16) : (s.setReg i v).entry j = s.entry j := rfl
@[simp] theorem State.setReg_memRead (i : RegIdx) (v : Byte) (a : Nat) : (s.setReg i v).memRead a = s.memRead a := rfl
@[simp] theorem State.setReg_fetchAt (i : RegIdx) (v : Byte) (q : Word) : (s.setReg i v).fetchAt q = s.fetchAt q := rfl

/-! ### `advance` -/

@[simp] theorem State.advance_regs : s.advance.regs = s.regs := rfl
@[simp] theorem State.advance_pc : s.advance.pc = s.pc + 2 := rfl
@[simp] theorem State.advance_stack : s.advance.stack = s.stack := rfl
@[simp] theorem State.advance_sp : s.advance.sp = s.sp := rfl
@[simp] theorem State.advance_mem : s.advance.mem = s.mem := rfl
@[simp] theorem State.advance_status : s.advance.status = s.status := rfl
@[simp] theorem State.advance_faultCause : s.advance.faultCause = s.faultCause := rfl
@[simp] theorem State.advance_faultPc : s.advance.faultPc = s.faultPc := rfl
@[simp] theorem State.advance_faultOpcode : s.advance.faultOpcode = s.faultOpcode := rfl
@[simp] theorem State.advance_reg (j : RegIdx) : s.advance.reg j = s.reg j := rfl
@[simp] theorem State.advance_entry (j : Fin 16) : s.advance.entry j = s.entry j := rfl
@[simp] theorem State.advance_memRead (a : Nat) : s.advance.memRead a = s.memRead a := rfl
@[simp] theorem State.advance_fetchAt (q : Word) : s.advance.fetchAt q = s.fetchAt q := rfl

/-! ### `jumpTo` -/

@[simp] theorem State.jumpTo_regs (p : Word) : (s.jumpTo p).regs = s.regs := rfl
@[simp] theorem State.jumpTo_pc (p : Word) : (s.jumpTo p).pc = p := rfl
@[simp] theorem State.jumpTo_stack (p : Word) : (s.jumpTo p).stack = s.stack := rfl
@[simp] theorem State.jumpTo_sp (p : Word) : (s.jumpTo p).sp = s.sp := rfl
@[simp] theorem State.jumpTo_mem (p : Word) : (s.jumpTo p).mem = s.mem := rfl
@[simp] theorem State.jumpTo_status (p : Word) : (s.jumpTo p).status = s.status := rfl
@[simp] theorem State.jumpTo_faultCause (p : Word) : (s.jumpTo p).faultCause = s.faultCause := rfl
@[simp] theorem State.jumpTo_faultPc (p : Word) : (s.jumpTo p).faultPc = s.faultPc := rfl
@[simp] theorem State.jumpTo_faultOpcode (p : Word) : (s.jumpTo p).faultOpcode = s.faultOpcode := rfl
@[simp] theorem State.jumpTo_reg (p : Word) (j : RegIdx) : (s.jumpTo p).reg j = s.reg j := rfl
@[simp] theorem State.jumpTo_entry (p : Word) (j : Fin 16) : (s.jumpTo p).entry j = s.entry j := rfl
@[simp] theorem State.jumpTo_memRead (p : Word) (a : Nat) : (s.jumpTo p).memRead a = s.memRead a := rfl
@[simp] theorem State.jumpTo_fetchAt (p : Word) (q : Word) : (s.jumpTo p).fetchAt q = s.fetchAt q := rfl

/-! ### `skip` -/

@[simp] theorem State.skip_regs : s.skip.regs = s.regs := rfl
@[simp] theorem State.skip_pc : s.skip.pc = s.pc + 2 := rfl
@[simp] theorem State.skip_stack : s.skip.stack = s.stack := rfl
@[simp] theorem State.skip_sp : s.skip.sp = s.sp := rfl
@[simp] theorem State.skip_mem : s.skip.mem = s.mem := rfl
@[simp] theorem State.skip_status : s.skip.status = s.status := rfl
@[simp] theorem State.skip_faultCause : s.skip.faultCause = s.faultCause := rfl
@[simp] theorem State.skip_faultPc : s.skip.faultPc = s.faultPc := rfl
@[simp] theorem State.skip_faultOpcode : s.skip.faultOpcode = s.faultOpcode := rfl
@[simp] theorem State.skip_reg (j : RegIdx) : s.skip.reg j = s.reg j := rfl
@[simp] theorem State.skip_entry (j : Fin 16) : s.skip.entry j = s.entry j := rfl
@[simp] theorem State.skip_memRead (a : Nat) : s.skip.memRead a = s.memRead a := rfl
@[simp] theorem State.skip_fetchAt (q : Word) : s.skip.fetchAt q = s.fetchAt q := rfl

/-! ### `halt` -/

@[simp] theorem State.halt_regs : s.halt.regs = s.regs := rfl
@[simp] theorem State.halt_pc : s.halt.pc = s.pc := rfl
@[simp] theorem State.halt_stack : s.halt.stack = s.stack := rfl
@[simp] theorem State.halt_sp : s.halt.sp = s.sp := rfl
@[simp] theorem State.halt_mem : s.halt.mem = s.mem := rfl
@[simp] theorem State.halt_status : s.halt.status = .halted := rfl
@[simp] theorem State.halt_faultCause : s.halt.faultCause = s.faultCause := rfl
@[simp] theorem State.halt_faultPc : s.halt.faultPc = s.faultPc := rfl
@[simp] theorem State.halt_faultOpcode : s.halt.faultOpcode = s.faultOpcode := rfl
@[simp] theorem State.halt_reg (j : RegIdx) : s.halt.reg j = s.reg j := rfl
@[simp] theorem State.halt_entry (j : Fin 16) : s.halt.entry j = s.entry j := rfl
@[simp] theorem State.halt_memRead (a : Nat) : s.halt.memRead a = s.memRead a := rfl
@[simp] theorem State.halt_fetchAt (q : Word) : s.halt.fetchAt q = s.fetchAt q := rfl

/-! ### `raise` -/

@[simp] theorem State.raise_regs (f : FaultCause) (p : Word) (o : Opcode) : (s.raise f p o).regs = s.regs := rfl
@[simp] theorem State.raise_pc (f : FaultCause) (p : Word) (o : Opcode) : (s.raise f p o).pc = s.pc := rfl
@[simp] theorem State.raise_stack (f : FaultCause) (p : Word) (o : Opcode) : (s.raise f p o).stack = s.stack := rfl
@[simp] theorem State.raise_sp (f : FaultCause) (p : Word) (o : Opcode) : (s.raise f p o).sp = s.sp := rfl
@[simp] theorem State.raise_mem (f : FaultCause) (p : Word) (o : Opcode) : (s.raise f p o).mem = s.mem := rfl
@[simp] theorem State.raise_status (f : FaultCause) (p : Word) (o : Opcode) : (s.raise f p o).status = .faulted := rfl
@[simp] theorem State.raise_faultCause (f : FaultCause) (p : Word) (o : Opcode) : (s.raise f p o).faultCause = some f := rfl
@[simp] theorem State.raise_faultPc (f : FaultCause) (p : Word) (o : Opcode) : (s.raise f p o).faultPc = p := rfl
@[simp] theorem State.raise_faultOpcode (f : FaultCause) (p : Word) (o : Opcode) : (s.raise f p o).faultOpcode = o := rfl
@[simp] theorem State.raise_reg (f : FaultCause) (p : Word) (o : Opcode) (j : RegIdx) : (s.raise f p o).reg j = s.reg j := rfl
@[simp] theorem State.raise_entry (f : FaultCause) (p : Word) (o : Opcode) (j : Fin 16) : (s.raise f p o).entry j = s.entry j := rfl
@[simp] theorem State.raise_memRead (f : FaultCause) (p : Word) (o : Opcode) (a : Nat) : (s.raise f p o).memRead a = s.memRead a := rfl
@[simp] theorem State.raise_fetchAt (f : FaultCause) (p : Word) (o : Opcode) (q : Word) : (s.raise f p o).fetchAt q = s.fetchAt q := rfl

/-! ### Reading a register after writing one (R8) -/

@[simp] theorem State.setReg_reg_same (i : RegIdx) (v : Byte) : (s.setReg i v).reg i = v := by
  simp [State.reg]

theorem State.setReg_reg_of_ne {i j : RegIdx} (h : j ≠ i) (v : Byte) : (s.setReg i v).reg j = s.reg j := by
  simp only [State.reg, State.setReg_regs]
  exact Vector.getElem_set_ne _ _ fun e => h (Fin.ext e.symm)

theorem State.setReg_reg (i j : RegIdx) (v : Byte) : (s.setReg i v).reg j = if j = i then v else s.reg j := by
  split
  next h => rw [h, State.setReg_reg_same]
  next h => exact State.setReg_reg_of_ne s h v

/-- The register file is what its sixteen registers read as. -/
theorem State.regs_ext {s t : State} (h : SameRegs s t) : t.regs = s.regs :=
  Vector.ext fun i hi => h ⟨i, hi⟩

/-! ### Updates written out as a record, which the claims use -/

variable (p : Word)

@[simp] theorem State.withPc_reg (j : RegIdx) : { s with pc := p }.reg j = s.reg j := rfl
@[simp] theorem State.withPc_entry (j : Fin 16) : { s with pc := p }.entry j = s.entry j := rfl
@[simp] theorem State.withPc_memRead (a : Nat) : { s with pc := p }.memRead a = s.memRead a := rfl
@[simp] theorem State.withPc_fetchAt (q : Word) : { s with pc := p }.fetchAt q = s.fetchAt q := rfl

/-- The address of the running instruction, seen after the advance (R43). -/
@[simp] theorem State.advance_ia : s.advance.ia = s.pc := by
  simp [State.ia]

/-- A fetch reads memory only: two states that read alike fetch alike (R22). -/
theorem State.fetchAt_congr {s t : State} (h : SameMemory s t) (q : Word) : t.fetchAt q = s.fetchAt q := by
  have read : ∀ a, a < 4096 → t.mem.read a = s.mem.read a := fun a ha => by
    simpa [State.memRead, ha] using h a
  unfold State.fetchAt
  split
  next hq => rw [read _ (by omega), read _ hq]
  next => rfl

/-! ### Frames: reflexive, and what each operation keeps -/

theorem SameMemory.refl : SameMemory s s := fun _ => rfl
theorem SameRegs.refl : SameRegs s s := fun _ => rfl
theorem SameStack.refl : SameStack s s := ⟨rfl, fun _ => rfl⟩
theorem SameRun.refl : SameRun s s := ⟨rfl, rfl, rfl, rfl⟩

theorem OnlyRegsChange_setReg (i : RegIdx) (v : Byte) : OnlyRegsChange [i] s (s.setReg i v) :=
  ⟨fun _ h => State.setReg_reg_of_ne s (by simpa using h) v, rfl, ⟨rfl, fun _ => rfl⟩, fun _ => rfl,
    ⟨rfl, rfl, rfl, rfl⟩⟩

theorem OnlyPcChanges_jumpTo : OnlyPcChanges s (s.jumpTo p) :=
  ⟨fun _ => rfl, ⟨rfl, fun _ => rfl⟩, fun _ => rfl, ⟨rfl, rfl, rfl, rfl⟩⟩

/-- Fault entry is exactly the four writes of R78. -/
theorem FaultEntered_raise (f : FaultCause) (o : Opcode) : FaultEntered f p o s (s.raise f p o) :=
  ⟨rfl, rfl, rfl, rfl, fun _ => rfl, ⟨rfl, fun _ => rfl⟩, fun _ => rfl⟩

end Sys2Proof.Machine
end

