-- ==== Sys2Proof/Laws/Memory.lean ====
section
/-! SUPPORT. Memory as a canonical list: a read after a write, and that every operation keeps the canonical form. -/

namespace Sys2Proof.Machine

@[simp] theorem Memory.read_nil (a : Nat) : Memory.read [] a = Config.resetByte := rfl

/-- Nothing is listed below the bound a canonical list starts from. -/
theorem Memory.read_below {lo : Nat} {m : Memory} (h : Memory.wfFrom lo m = true) {a : Nat} (ha : a < lo) :
    Memory.read m a = Config.resetByte := by
  induction m generalizing lo with
  | nil => rfl
  | cons c m ih =>
    simp only [Memory.wfFrom, Bool.and_eq_true, decide_eq_true_eq] at h
    simp only [Memory.read]
    rw [if_neg (by omega), ih h.2 (by omega)]

theorem Memory.wfFrom_mono {lo lo' : Nat} {m : Memory} (h : Memory.wfFrom lo m = true) (hl : lo' ≤ lo) :
    Memory.wfFrom lo' m = true := by
  cases m with
  | nil => rfl
  | cons c m =>
    simp only [Memory.wfFrom, Bool.and_eq_true, decide_eq_true_eq] at h ⊢
    exact ⟨⟨⟨by omega, h.1.1.2⟩, h.1.2⟩, h.2⟩

/-- A write keeps the canonical form. -/
theorem Memory.wfFrom_write {lo : Nat} {m : Memory} (h : Memory.wfFrom lo m = true) {a : Nat} (hlo : lo ≤ a)
    (ha : a < 4096) (v : Byte) : Memory.wfFrom lo (Memory.write m a v) = true := by
  induction m generalizing lo with
  | nil =>
    simp only [Memory.write]
    split
    next => rfl
    next hv => simp [Memory.wfFrom, hlo, ha, hv]
  | cons c m ih =>
    obtain ⟨b, u⟩ := c
    have hw := h
    simp only [Memory.wfFrom, Bool.and_eq_true, decide_eq_true_eq] at h
    obtain ⟨⟨⟨hb, hbm⟩, hu⟩, hm⟩ := h
    simp only [Memory.write]
    split
    next hab =>
      split
      next => exact hw
      next hv => simp [Memory.wfFrom, hlo, ha, hv, hu, hm, hbm, Nat.succ_le_of_lt hab]
    next hab =>
      split
      next e =>
        subst e
        split
        next => exact Memory.wfFrom_mono hm (by omega)
        next hv => simp [Memory.wfFrom, hlo, ha, hv, hm]
      next hne => simp [Memory.wfFrom, hb, hbm, hu, ih hm (by omega)]

theorem Memory.wf_write {m : Memory} (h : m.wf = true) {a : Nat} (ha : a < 4096) (v : Byte) :
    (m.write a v).wf = true :=
  Memory.wfFrom_write h (Nat.zero_le a) ha v

/-- A read after a write to the same address gives the value written; every other address reads as before. -/
theorem Memory.wfFrom_read_write {lo : Nat} {m : Memory} (h : Memory.wfFrom lo m = true) (a b : Nat) (v : Byte) :
    (Memory.write m a v).read b = if b = a then v else m.read b := by
  induction m generalizing lo with
  | nil =>
    by_cases hv : v = Config.resetByte <;> simp [Memory.write, Memory.read, hv]
  | cons c m ih =>
    obtain ⟨k, u⟩ := c
    simp only [Memory.wfFrom, Bool.and_eq_true, decide_eq_true_eq] at h
    have below : ∀ d, d ≤ k → Memory.read m d = Config.resetByte := fun d hd => Memory.read_below h.2 (by omega)
    simp only [Memory.write]
    split
    next hak =>
      split
      next hv =>
        split
        next e => rw [e, hv, Memory.read, if_neg (by omega), below a (by omega)]
        next => rfl
      next => simp only [Memory.read]
    next hak =>
      split
      next e =>
        subst e
        split
        next hv =>
          split
          next hb => rw [hb, hv, below a (by omega)]
          next hb => rw [Memory.read, if_neg hb]
        next =>
          simp only [Memory.read]
          split <;> rfl
      next hne =>
        simp only [Memory.read, ih h.2]
        split
        next e => rw [if_neg (by omega)]
        next => rfl

theorem Memory.read_write {m : Memory} (h : m.wf = true) (a b : Nat) (v : Byte) :
    (m.write a v).read b = if b = a then v else m.read b :=
  Memory.wfFrom_read_write h a b v

/-- The host's memory write, whole: where the address exists it writes that byte and nothing else. -/
theorem State.memWrite_spec {s t : State} {a : Nat} {v : Byte} (h : s.memWrite a v = some t) :
    a < 4096 ∧ t = { s with mem := s.mem.write a v } := by
  unfold State.memWrite at h
  split at h
  next ha => exact ⟨ha, (Option.some.inj h).symm⟩
  next => cases h

/-- Placing an opcode writes its two bytes, the high byte first (R24), and no other. -/
theorem State.placeOpcode_read {s : State} (h : s.mem.wf = true) {a : Nat} (ha : a + 1 < 4096) (w : Opcode)
    (b : Nat) : (s.placeOpcode a w).mem.read b =
      if b = a + 1 then loByte w else if b = a then hiByte w else s.mem.read b := by
  have step1 : (s.placeOpcode a w).mem = (s.mem.write a (hiByte w)).write (a + 1) (loByte w) := by
    rw [State.placeOpcode, if_pos ha]
  rw [step1, Memory.read_write (Memory.wf_write h (by omega) _), Memory.read_write h]

/-- Placing an opcode keeps the canonical form. -/
theorem State.placeOpcode_wf {s : State} (h : s.mem.wf = true) (a : Nat) (w : Opcode) :
    (s.placeOpcode a w).mem.wf = true := by
  unfold State.placeOpcode
  split
  next ha => exact Memory.wf_write (Memory.wf_write h (by omega) _) ha _
  next => exact h

end Sys2Proof.Machine
end

