-- ==== Sys2Proof/Laws/Ops.lean ====
section
/-! SUPPORT. Everything each shared operation can do, said once. -/

namespace Sys2Proof.Machine

variable {s t : State}

/-- A push succeeds exactly when a slot is free; it writes the slot `sp` names and moves `sp` up (R56). -/
theorem State.push_of_space (v : Word) (h : s.sp.val < 16) :
    ∃ t, s.push v = some t ∧ t.sp.val = s.sp.val + 1 ∧ t.pc = s.pc ∧
      (∀ i : Fin 16, t.entry i = if i.val = s.sp.val then v else s.entry i) ∧
      SameRegs s t ∧ SameMemory s t ∧ SameRun s t ∧ t.mem = s.mem := by
  refine ⟨{ s with stack := s.stack.set s.sp.val v h, sp := ⟨s.sp.val + 1, by omega⟩ },
    by rw [State.push, dif_pos h], rfl, rfl, fun i => ?_, fun _ => rfl, fun _ => rfl,
    ⟨rfl, rfl, rfl, rfl⟩, rfl⟩
  simp only [State.entry, Vector.getElem_set]
  exact if_congr ⟨Eq.symm, Eq.symm⟩ rfl rfl

theorem State.push_of_full (v : Word) (h : s.sp.val = 16) : s.push v = none := by
  rw [State.push, dif_neg (by omega)]

/-- A pop succeeds exactly when an entry is outstanding; it moves `sp` down and gives the entry `sp` then names,
which keeps its value (R54, D12). -/
theorem State.pop_of_outstanding (h : 0 < s.sp.val) :
    ∃ t, s.pop = some (s.entry ⟨s.sp.val - 1, by omega⟩, t) ∧ t.sp.val = s.sp.val - 1 ∧ t.pc = s.pc ∧
      (∀ i, t.entry i = s.entry i) ∧ SameRegs s t ∧ SameMemory s t ∧ SameRun s t ∧ t.mem = s.mem :=
  ⟨{ s with sp := ⟨s.sp.val - 1, by omega⟩ }, by rw [State.pop, dif_pos h]; rfl, rfl, rfl, fun _ => rfl,
    fun _ => rfl, fun _ => rfl, ⟨rfl, rfl, rfl, rfl⟩, rfl⟩

theorem State.pop_of_empty (h : s.sp.val = 0) : s.pop = none := by
  rw [State.pop, dif_neg (by omega)]

/-- A conditional skip adds 2 to `pc` or does nothing (R58). -/
theorem State.skipIf_eq (c : Prop) [Decidable c] :
    s.skipIf c = s.jumpTo (if c then s.pc + 2 else s.pc) := by
  unfold State.skipIf
  split <;> rfl

/-- A fetch succeeds exactly at `p <= 4094` (R23). -/
theorem State.fetchAt_isSome (p : Word) : (s.fetchAt p).isSome ↔ p.toNat ≤ 4094 := by
  unfold State.fetchAt
  split <;> simp <;> omega

theorem State.fetchAt_le {p : Word} {w : Opcode} (h : s.fetchAt p = some w) : p.toNat ≤ 4094 :=
  (State.fetchAt_isSome (s := s) p).mp (by rw [h]; rfl)

theorem State.fetchAt_eq_none {p : Word} : s.fetchAt p = none ↔ 4095 ≤ p.toNat := by
  have some_iff := State.fetchAt_isSome (s := s) p
  cases h : s.fetchAt p <;> simp [h] at some_iff ⊢ <;> omega

/-- The advance never wraps after a successful fetch (R43). -/
theorem State.advance_toNat {w : Opcode} (h : s.fetchAt s.pc = some w) : (s.pc + 2).toNat = s.pc.toNat + 2 := by
  have := State.fetchAt_le h
  rw [BitVec.toNat_add]
  exact Nat.mod_eq_of_lt (by simp; omega)

/-! ### What one step is, case by case: a fault of the fetch, a fault of the dispatch, or one handler (R40) -/

theorem step_of_no_fetch (hr : s.status = .running) (hf : s.fetchAt s.pc = none) :
    step s = .next (s.raise .fetchOutOfBounds s.pc 0x0000#16) := by
  unfold step
  simp only [hr, State.fetch, hf, State.raiseFetch]

theorem step_of_illegal {w : Opcode} {why : IllegalOpcode} (hr : s.status = .running)
    (hf : s.fetchAt s.pc = some w) (hd : decode w = .illegal why) :
    step s = .next (s.advance.raise .unknownOpcode s.pc w) := by
  unfold step
  simp only [hr, State.fetch, hf, hd, State.raiseUnknown, State.advance_ia]

theorem step_of_instr {w : Opcode} {i : Instr} (hr : s.status = .running)
    (hf : s.fetchAt s.pc = some w) (hd : decode w = .instr i) : step s = exec i s.advance := by
  unfold step
  simp only [hr, State.fetch, hf, hd]

/-! ### A run of one step more is a step, then the rest of the run if the step answers a next state -/

theorem core_run_of_next {k : Nat} (h : step s = .next t) : Sys2Proof.core.run (k + 1) s = Sys2Proof.core.run k t := by
  have hc : Sys2Proof.core.step s = .next t := h
  rw [show Sys2Proof.core.run (k + 1) s = _ from Host.Core.run.eq_2 Sys2Proof.core s k, hc]

theorem core_run_of_fault {k : Nat} {r : Fault} (h : step s = .fault r) : Sys2Proof.core.run (k + 1) s = .fault r := by
  have hc : Sys2Proof.core.step s = .fault r := h
  rw [show Sys2Proof.core.run (k + 1) s = _ from Host.Core.run.eq_2 Sys2Proof.core s k, hc]

/-- A run that goes on for one step more took its first step to some state and ran on from there. -/
theorem step_of_core_run {k : Nat} (h : Sys2Proof.core.run (k + 1) s = .next t) :
    ∃ u, step s = .next u ∧ Sys2Proof.core.run k u = .next t := by
  rw [show Sys2Proof.core.run (k + 1) s = _ from Host.Core.run.eq_2 Sys2Proof.core s k] at h
  split at h
  next u hu => exact ⟨u, hu, h⟩
  all_goals cases h

/-- A step that answers a next state was taken in `Running` (R16). -/
theorem running_of_step (h : step s = .next t) : s.status = .running := by
  unfold step at h
  split at h <;> first | assumption | cases h

end Sys2Proof.Machine
end

