-- ==== Sys2Proof/Laws/PerInstr.lean ====
section
/-! SUPPORT. Statements about every instruction as syntax, one lemma per constructor. Family `RowFits`: an
instruction's word selects a row of the opcode map of R45 under its mask, and that row's fields give it back. -/

namespace Sys2Proof.Laws.RowFits

/-- The instruction's word matches a row of the opcode map, whose operands are the instruction's. -/
def Statement (i : Instr) : Prop :=
  ∃ r ∈ opcodeTable, r.Selects (encode i) ∧ r.operands (encode i) = i

theorem selects_wordA (c : BitVec 4) (addr : Addr) (p : Opcode) (hp : p.toNat = c.toNat * 4096) :
    wordA c addr &&& 0xF000#16 = p :=
  BitVec.eq_of_toNat_eq (by rw [and_top_toNat, wordA_toNat, hp]; omega)

theorem selects_wordXK (c : BitVec 4) (x : RegIdx) (kk : Byte) (p : Opcode) (hp : p.toNat = c.toNat * 4096) :
    wordXK c x kk &&& 0xF000#16 = p :=
  BitVec.eq_of_toNat_eq (by rw [and_top_toNat, wordXK_toNat, hp]; omega)

theorem selects_wordXY (c n : BitVec 4) (x y : RegIdx) (p : Opcode) (hp : p.toNat = c.toNat * 4096 + n.toNat) :
    wordXY c x y n &&& 0xF00F#16 = p :=
  BitVec.eq_of_toNat_eq (by rw [and_top_low_toNat, wordXY_toNat, hp]; omega)

theorem halt : Statement .halt := ⟨_, .head _, rfl, rfl⟩

theorem cls : Statement .cls := ⟨_, .tail _ (.head _), rfl, rfl⟩

theorem ret : Statement .ret := ⟨_, .tail _ (.tail _ (.head _)), rfl, rfl⟩

theorem jp (addr : Addr) : Statement (.jp addr) :=
  ⟨opcodeTable[3], List.getElem_mem _, selects_wordA 1 addr _ rfl, congrArg Instr.jp (addrField_wordA 1 addr)⟩

theorem call (addr : Addr) : Statement (.call addr) :=
  ⟨opcodeTable[4], List.getElem_mem _, selects_wordA 2 addr _ rfl, congrArg Instr.call (addrField_wordA 2 addr)⟩

theorem seImm (x : RegIdx) (kk : Byte) : Statement (.seImm x kk) :=
  ⟨opcodeTable[5], List.getElem_mem _, selects_wordXK 3 x kk _ rfl,
    congrArg₂ Instr.seImm (xField_wordXK 3 x kk) (kkField_wordXK 3 x kk)⟩

theorem sneImm (x : RegIdx) (kk : Byte) : Statement (.sneImm x kk) :=
  ⟨opcodeTable[6], List.getElem_mem _, selects_wordXK 4 x kk _ rfl,
    congrArg₂ Instr.sneImm (xField_wordXK 4 x kk) (kkField_wordXK 4 x kk)⟩

theorem seReg (x y : RegIdx) : Statement (.seReg x y) :=
  ⟨opcodeTable[7], List.getElem_mem _, selects_wordXY 5 0 x y _ rfl,
    congrArg₂ Instr.seReg (xField_wordXY 5 0 x y) (yField_wordXY 5 0 x y)⟩

theorem ldImm (x : RegIdx) (kk : Byte) : Statement (.ldImm x kk) :=
  ⟨opcodeTable[8], List.getElem_mem _, selects_wordXK 6 x kk _ rfl,
    congrArg₂ Instr.ldImm (xField_wordXK 6 x kk) (kkField_wordXK 6 x kk)⟩

theorem addImm (x : RegIdx) (kk : Byte) : Statement (.addImm x kk) :=
  ⟨opcodeTable[9], List.getElem_mem _, selects_wordXK 7 x kk _ rfl,
    congrArg₂ Instr.addImm (xField_wordXK 7 x kk) (kkField_wordXK 7 x kk)⟩

theorem ldReg (x y : RegIdx) : Statement (.ldReg x y) :=
  ⟨opcodeTable[10], List.getElem_mem _, selects_wordXY 8 0 x y _ rfl,
    congrArg₂ Instr.ldReg (xField_wordXY 8 0 x y) (yField_wordXY 8 0 x y)⟩

theorem orReg (x y : RegIdx) : Statement (.orReg x y) :=
  ⟨opcodeTable[11], List.getElem_mem _, selects_wordXY 8 1 x y _ rfl,
    congrArg₂ Instr.orReg (xField_wordXY 8 1 x y) (yField_wordXY 8 1 x y)⟩

theorem andReg (x y : RegIdx) : Statement (.andReg x y) :=
  ⟨opcodeTable[12], List.getElem_mem _, selects_wordXY 8 2 x y _ rfl,
    congrArg₂ Instr.andReg (xField_wordXY 8 2 x y) (yField_wordXY 8 2 x y)⟩

theorem xorReg (x y : RegIdx) : Statement (.xorReg x y) :=
  ⟨opcodeTable[13], List.getElem_mem _, selects_wordXY 8 3 x y _ rfl,
    congrArg₂ Instr.xorReg (xField_wordXY 8 3 x y) (yField_wordXY 8 3 x y)⟩

theorem addReg (x y : RegIdx) : Statement (.addReg x y) :=
  ⟨opcodeTable[14], List.getElem_mem _, selects_wordXY 8 4 x y _ rfl,
    congrArg₂ Instr.addReg (xField_wordXY 8 4 x y) (yField_wordXY 8 4 x y)⟩

end Sys2Proof.Laws.RowFits
end

