-- ==== Sys2Proof/Tests/Slice0.lean ====
section
/-! SUPPORT. Tests. Expected results are the spec's: the vectors V.. and L.. of 95_test_vectors.md, or the examples
of the rules. The second half shows, for each statement with hypotheses, a state and operands that meet them. -/

namespace Sys2Proof.Tests

open Sys2Proof.Machine

/-! ## Small states -/

/-- A running core at `pc` with the opcode `w` there and the registers listed. -/
def coreAt (pc : Word) (w : Opcode) (rs : List (RegIdx × Byte)) : State :=
  rs.foldl (fun s r => s.setReg r.1 r.2)
    ({ State.reset with pc := pc, status := .running }.placeOpcode pc.toNat w)

/-- The same with `sp` as given and every stack entry holding `v`. -/
def deep (pc : Word) (w : Opcode) (sp : Fin 17) (v : Word) : State :=
  { coreAt pc w [] with sp := sp, stack := Vector.replicate 16 v }

/-- The next state's view, if the step answers one. -/
def after {α : Type} (s : State) (f : State → α) : Option α :=
  match step s with
  | .next t => some (f t)
  | .fault _ => none
  | .refused _ => none

/-- The fault record as the vectors write it: (cause, fault_pc, fault_opcode), with `pc` and the status. -/
def faultView (t : State) : RunStatus × Nat × Word × Opcode × Word :=
  (t.status, causeCode t.faultCause, t.faultPc, t.faultOpcode, t.pc)

/-! ## Well-formedness: an ill-formed term for each check -/

theorem test_wellPlaced_refuses_second_byte_outside : Instr.wellPlaced 4095 .cls = false := by decide
theorem test_wellPlaced_accepts_last_place : Instr.wellPlaced 4094 .cls = true := by decide
theorem test_wellFormedAddress_refuses_outside : wellFormedAddress 0x1000 = false := by decide
theorem test_host_write_outside_is_no_move : State.reset.hostMove (.writeByte 0x1000 1) = none := by decide

/-! ## Decoding: a word for each constructor, written out from its pattern in R45 (R49's syntax) -/

theorem test_decode_halt : decode 0x0000#16 = .instr .halt := by decide
theorem test_decode_cls : decode 0x00E0#16 = .instr .cls := by decide
theorem test_decode_ret : decode 0x00EE#16 = .instr .ret := by decide
theorem test_decode_jp : decode 0b0001101010111100#16 = .instr (.jp 0xABC#12) := by decide
theorem test_decode_call : decode 0b0010000100000000#16 = .instr (.call 0x100#12) := by decide
theorem test_decode_seImm : decode 0b0011001100101010#16 = .instr (.seImm 3 0x2A#8) := by decide
theorem test_decode_sneImm : decode 0b0100001100101011#16 = .instr (.sneImm 3 0x2B#8) := by decide
theorem test_decode_seReg : decode 0b0101000100100000#16 = .instr (.seReg 1 2) := by decide
theorem test_decode_ldImm : decode 0b0110101011111111#16 = .instr (.ldImm 0xA 0xFF#8) := by decide
theorem test_decode_addImm : decode 0b0111000000010000#16 = .instr (.addImm 0 0x10#8) := by decide
theorem test_decode_ldReg : decode 0b1000001101110000#16 = .instr (.ldReg 3 7) := by decide
theorem test_decode_orReg : decode 0b1000001000110001#16 = .instr (.orReg 2 3) := by decide
theorem test_decode_andReg : decode 0b1000001000110010#16 = .instr (.andReg 2 3) := by decide
theorem test_decode_xorReg : decode 0b1000001000110011#16 = .instr (.xorReg 2 3) := by decide
theorem test_decode_addReg : decode 0b1000000000010100#16 = .instr (.addReg 0 1) := by decide
/-- The opcodes the vectors name as unknown: V40.3 to V40.5, V42.9, V44.18 to V44.20, V60.1, V60.2. -/
theorem test_decode_rejects :
    [0x00E1, 0x0123, 0x00EF, 0x5121, 0x8125, 0x812F, 0x812E, 0x9999, 0xF000].all
      (fun w => (decode w).instr? == none) = true := by decide
theorem test_tableWord_is_big_endian : decodeTableWord 16 0x612A = some (.ldImm 1 0x2A#8) := by decide

/-! ## One step -/

/-- V20.1: big-endian fetch. -/
theorem test_fetch_big_endian :
    State.fetch { State.reset with pc := 0x010, mem := [(0x010, 0x61), (0x011, 0x2A)] } = some 0x612A#16 := by decide
/-- V20.2. -/
theorem test_fetch_last_place : after (coreAt 0xFFE 0x6042 []) (fun t => (t.reg 0, t.pc)) = some (0x42, 0x1000) := by decide
/-- V20.4. -/
theorem test_fetch_at_4095_faults :
    after { State.reset with pc := 0xFFF, status := .running } faultView = some (.faulted, 4, 0xFFF, 0, 0xFFF) := by decide
/-- V40.1. -/
theorem test_halt : after State.reset.hostStart (fun t => (t.status, t.pc)) = some (.halted, 0x002) := by decide
/-- V40.2. -/
theorem test_cls : after (coreAt 0x010 0x00E0 [(3, 0x77)]) (fun t => (t.pc, t.reg 3, t.status)) =
    some (0x012, 0x77, .running) := by decide
/-- V41.5. -/
theorem test_ret : after (deep 0x300 0x00EE 2 0x456) (fun t => (t.pc, t.sp.val, t.entry 1)) =
    some (0x456, 1, 0x456) := by decide
/-- V41.6. -/
theorem test_ret_underflows : after (coreAt 0 0x00EE []) faultView = some (.faulted, 2, 0, 0x00EE, 0x002) := by decide
/-- V41.2: an odd target. -/
theorem test_jp : after (coreAt 0x200 0x1201 []) State.pc = some 0x201 := by decide
/-- V41.7: the pushed 0x1000 is not truncated. -/
theorem test_call : after (coreAt 0xFFE 0x2123 []) (fun t => (t.entry 0, t.sp.val, t.pc)) =
    some (0x1000, 1, 0x123) := by decide
/-- V41.4. -/
theorem test_call_overflows : after (deep 0x200 0x2300 16 0) (fun t => (faultView t, t.sp.val)) =
    some ((.faulted, 1, 0x200, 0x2300, 0x202), 16) := by decide
/-- V42.1. -/
theorem test_seImm_taken : after (coreAt 0x200 0x332A [(3, 0x2A)]) State.pc = some 0x204 := by decide
/-- V42.11. -/
theorem test_seImm_not_taken : after (coreAt 0xFFE 0x3001 []) State.pc = some 0x1000 := by decide
/-- V42.3. -/
theorem test_sneImm_taken : after (coreAt 0x200 0x432B [(3, 0x2A)]) State.pc = some 0x204 := by decide
/-- V42.4. -/
theorem test_sneImm_not_taken : after (coreAt 0x200 0x432A [(3, 0x2A)]) State.pc = some 0x202 := by decide
/-- V42.6: values equal, fields differ. -/
theorem test_seReg_taken : after (coreAt 0x300 0x5120 [(1, 7), (2, 7)]) State.pc = some 0x304 := by decide
/-- V42.7. -/
theorem test_seReg_not_taken : after (coreAt 0x300 0x5120 [(1, 7), (2, 8)]) State.pc = some 0x302 := by decide
/-- V43.2. -/
theorem test_ldImm : after (coreAt 0 0x6F01 []) (fun t => t.reg 0xF) = some 0x01 := by decide
/-- V43.3: no carry. -/
theorem test_addImm_wraps : after (coreAt 0 0x7001 [(0, 0xFF), (0xF, 0x07)]) (fun t => (t.reg 0, t.reg 0xF)) =
    some (0x00, 0x07) := by decide
/-- V44.1. -/
theorem test_ldReg : after (coreAt 0 0x8370 [(3, 0x12), (7, 0xAB)]) (fun t => (t.reg 3, t.reg 7)) = some (0xAB, 0xAB) := by
  decide
/-- V44.3: VF is not cleared. -/
theorem test_orReg : after (coreAt 0 0x8451 [(4, 0xF0), (5, 0x0F), (0xF, 1)]) (fun t => (t.reg 4, t.reg 0xF)) =
    some (0xFF, 1) := by decide
/-- V44.4. -/
theorem test_andReg : after (coreAt 0 0x8452 [(4, 0xF0), (5, 0x3C), (0xF, 1)]) (fun t => (t.reg 4, t.reg 0xF)) =
    some (0x30, 1) := by decide
/-- V44.5. -/
theorem test_xorReg : after (coreAt 0 0x8453 [(4, 0xF0), (5, 0x3C)]) (fun t => t.reg 4) = some 0xCC := by decide
/-- V44.16: the old VF is added. -/
theorem test_addReg_reads_vf : after (coreAt 0 0x80F4 [(0, 0x10), (0xF, 0xF5)]) (fun t => (t.reg 0, t.reg 0xF)) =
    some (0x05, 0x01) := by decide
/-- V44.15: the carry is written last. -/
theorem test_addReg_carry_last : after (coreAt 0 0x8F14 [(0xF, 0x02), (1, 0x03)]) (fun t => t.reg 0xF) = some 0x00 := by
  decide
/-- V44.18. -/
theorem test_unknown_opcode : after (coreAt 0x050 0x8125 [(1, 0x11)]) (fun t => (faultView t, t.reg 1)) =
    some ((.faulted, 3, 0x050, 0x8125, 0x052), 0x11) := by decide
/-- V60.3: no further step, and a second start does nothing. -/
theorem test_faulted_is_terminal :
    after ({ State.reset with status := .faulted }) State.pc = none ∧
      ({ State.reset with status := .faulted }).hostStart = { State.reset with status := .faulted } := by decide
/-- The host's load and start: the row's word runs as the first instruction after reset (R62's example). -/
theorem test_withFetchWord : after (State.reset.withFetchWord 16 0x6005) (fun t => (t.reg 0, t.pc)) =
    some (0x05, 0x002) := by decide
/-- Writing the reset byte removes the entry. -/
theorem test_memory_is_canonical :
    ((Memory.write [] 5 7).write 3 9).write 5 0 = [(3, 9)] := by decide

/-! ## Witnesses: the hypotheses of the statements can be met -/

theorem witness_EncodeOfDecode : decode 0x8FF4#16 = .instr (.addReg 15 15) := by decide
theorem witness_NoOpcodeMatchesTwoRows : opcodeTable[14].Selects 0x8FF4#16 := by decide
theorem witness_IllegalOpcodes :
    decode 0x0001#16 = .illegal .systemValue ∧ decode 0x0FFF#16 = .illegal .systemValue ∧
    decode 0x5FFF#16 = .illegal .skipMinor ∧ decode 0x8005#16 = .illegal .aluMinor ∧
    decode 0x9000#16 = .illegal .topNibble ∧ decode 0xFFFF#16 = .illegal .topNibble := by decide
/-- The hypotheses of StepRunsTheHandlerOfTheMatchingRow, of both clauses. -/
theorem witness_StepRunsTheHandlerOfTheMatchingRow :
    (coreAt 0 0x8014 []).status = .running ∧ (coreAt 0 0x8014 []).fetch = some 0x8014#16 ∧ opcodeTable[14].Selects 0x8014#16 ∧
    (coreAt 0 0x9999 []).fetch = some 0x9999#16 ∧ (∀ r ∈ opcodeTable, 0x9999#16 &&& r.mask ≠ r.pattern) := by
  refine ⟨rfl, by decide, by decide, by decide, ?_⟩
  simp [opcodeTable]
theorem witness_StepRunsTheDecodedInstruction :
    (coreAt 0xFFE 0x6042 []).status = .running ∧ (coreAt 0xFFE 0x6042 []).fetch = some 0x6042#16 ∧
    decode 0x6042#16 = .instr (.ldImm 0 0x42#8) := by decide
/-- AdvanceBeforeDispatchNeverWraps at the last address that can be fetched, and at an illegal opcode. -/
theorem witness_AdvanceBeforeDispatchNeverWraps :
    (coreAt 0xFFE 0x0000 []).status = .running ∧ (coreAt 0xFFE 0x0000 []).fetch = some 0x0000#16 ∧
    (coreAt 0x010 0x00E1 []).fetch = some 0x00E1#16 := by decide
/-- Both clauses of FetchIsBigEndian, at the values where they meet. -/
theorem witness_FetchIsBigEndian :
    (0xFFE#16 : Word).toNat ≤ 4094 ∧ 4095 ≤ (0xFFF#16 : Word).toNat ∧
    State.reset.fetchAt 0xFFE#16 = some 0 ∧ State.reset.fetchAt 0xFFF#16 = none := by decide
theorem witness_WithFetchWordPlacesTheOpcode :
    State.reset.mem.wf = true ∧ State.reset.pc.toNat ≤ 4094 ∧ (coreAt 0xFFE 0x6042 []).mem.wf = true ∧
    (coreAt 0xFFE 0x6042 []).pc.toNat ≤ 4094 := by decide
/-- Both clauses of RetPopsOrUnderflows, at sp = 16, 1 and 0. -/
theorem witness_RetPopsOrUnderflows :
    (deep 0 0x00EE 16 0).sp.val = (15 : Fin 16).val + 1 ∧ (deep 0 0x00EE 1 0).sp.val = (0 : Fin 16).val + 1 ∧
    State.reset.sp.val = 0 := by decide
/-- Both clauses of CallPushesOrOverflows, at sp = 15 and 16. -/
theorem witness_CallPushesOrOverflows :
    (deep 0 0x2300 15 0).sp.val = (15 : Fin 16).val ∧ (deep 0 0x2300 16 0).sp.val = 16 := by decide
/-- CallsAndReturnsNest: sixteen calls from an empty stack, and its two boundary clauses. -/
theorem witness_CallsAndReturnsNest :
    State.reset.sp.val + (List.replicate 16 ((2, 0) : Word × Addr)).length ≤ 16 ∧ (deep 0 0x2300 16 0).sp.val = 16 ∧
    State.reset.sp.val = 0 := by decide
/-- SkipsAdvanceByFourOrTwo, each family, and other memory under which the same opcode is fetched. -/
theorem witness_SkipsAdvanceByFourOrTwo :
    (coreAt 0x200 0x3F01 []).status = .running ∧ (coreAt 0x200 0x3F01 []).fetch = some 0x3F01#16 ∧
    decode 0x3F01#16 = .instr (.seImm 15 1) ∧ decode 0x4F01#16 = .instr (.sneImm 15 1) ∧
    decode 0x5FF0#16 = .instr (.seReg 15 15) ∧
    { coreAt 0x200 0x3F01 [] with mem := [(0x200, 0x3F), (0x201, 0x01), (0x202, 0x99), (0x203, 0x99)] }.fetch =
      some 0x3F01#16 := by decide
theorem witness_SeImmediateSkipsOnEqual : State.reset.reg 15 = 0x00#8 ∧ State.reset.reg 15 ≠ 0xFF#8 := by decide
theorem witness_SneImmediateSkipsOnUnequal : State.reset.reg 0 = 0x00#8 ∧ State.reset.reg 0 ≠ 0x01#8 := by decide
theorem witness_SeRegisterSkipsOnEqualValues :
    (coreAt 0 0 [(1, 7), (2, 7)]).reg 1 = (coreAt 0 0 [(1, 7), (2, 7)]).reg 2 ∧
    (coreAt 0 0 [(1, 7), (2, 8)]).reg 1 ≠ (coreAt 0 0 [(1, 7), (2, 8)]).reg 2 := by decide
theorem witness_AddRegisterWrapsAndWritesCarryLast : (0 : RegIdx) ≠ 15 := by decide
/-- OnlyDestinationRegistersChange: a step that answers a next state, and a register it does not write. -/
theorem witness_OnlyDestinationRegistersChange :
    (after (coreAt 0 0x8014 []) fun _ => ()) = some () ∧ 2 ∉ destinations (.addReg 0 1) := by decide
theorem witness_StackChangesOnlyInCallAndReturn :
    (after (deep 0 0x2300 15 0) fun t => t.sp.val) = some 16 ∧ (after (deep 0 0x00EE 1 0) fun t => t.sp.val) = some 0 ∧
    (after (coreAt 0 0x00E0 []) fun t => t.sp.val) = some 0 := by decide
theorem witness_MemoryIsWrittenOnlyByTheHostInReady :
    (after (coreAt 0 0x6005 []) fun _ => ()) = some () ∧
    (State.reset.hostMove (.writeByte 0xFFF 1)).isSome = true := by decide
theorem witness_FetchIsTheSameAllThroughARun :
    Sys2Proof.core.run 1 (coreAt 0x040 0x1040 []) = .next (coreAt 0x040 0x1040 []) := by
  have h : step (coreAt 0x040 0x1040 []) = .next (coreAt 0x040 0x1040 []) :=
    (step_of_instr (w := 0x1040#16) (i := .jp 0x040#12) rfl (by decide) (by decide)).trans rfl
  rw [core_run_of_next h]
  rfl
theorem witness_CauseCodesAreDistinct :
    causeCode (some .fetchOutOfBounds) = causeCode (some .fetchOutOfBounds) := rfl
theorem witness_CallOnFullStackFaults :
    (deep 0 0x2300 16 0).status = .running ∧ (deep 0 0x2300 16 0).fetch = some 0x2300#16 ∧
    decode 0x2300#16 = .instr (.call 0x300#12) ∧ (deep 0 0x2300 16 0).sp.val = 16 := by decide
theorem witness_ReturnOnEmptyStackFaults :
    (coreAt 0 0x00EE []).status = .running ∧ (coreAt 0 0x00EE []).fetch = some 0x00EE#16 ∧ (coreAt 0 0x00EE []).sp.val = 0 := by
  decide
theorem witness_UnknownOpcodeFaultsAndIsReported :
    (coreAt 0 0x9999 []).status = .running ∧ (coreAt 0 0x9999 []).fetch = some 0x9999#16 ∧
    (∀ i, decode 0x9999#16 ≠ .instr i) := by
  refine ⟨rfl, by decide, fun i => ?_⟩
  rw [show decode 0x9999#16 = .illegal .topNibble by decide]
  exact fun h => by cases h
theorem witness_FetchPastTheEndFaults :
    (coreAt 0xFFF 0 []).status = .running ∧ 4095 ≤ (coreAt 0xFFF 0 []).pc.toNat ∧
    4095 ≤ (coreAt 0x1002 0 []).pc.toNat := by decide
/-- EveryFaultIsPrecise: a step into `Faulted` of each cause. -/
theorem witness_EveryFaultIsPrecise :
    (after (deep 0 0x2300 16 0) State.status) = some .faulted ∧ (after (coreAt 0 0x00EE []) State.status) = some .faulted ∧
    (after (coreAt 0 0x9999 []) State.status) = some .faulted ∧ (after (coreAt 0xFFF 0 []) State.status) = some .faulted := by
  decide
theorem witness_StepsEndTheRunExactlyAtHaltOrFault : (coreAt 0 0 []).status = .running := by decide
theorem witness_JumpToItselfNeverEnds :
    (coreAt 0x040 0x1040 []).status = .running ∧ (coreAt 0x040 0x1040 []).fetch = some 0x1040#16 ∧
    decode 0x1040#16 = .instr (.jp 0x040#12) ∧ (coreAt 0x040 0x1040 []).pc.toNat = (0x040#12 : Addr).toNat := by decide
/-- StepsHappenOnlyInRunning: a step, and a host move in each terminal status. -/
theorem witness_StepsHappenOnlyInRunning :
    (after (coreAt 0 0 []) State.status) = some .halted ∧
    State.hostMove { State.reset with status := .halted } .start = some { State.reset with status := .halted } ∧
    State.hostMove { State.reset with status := .faulted } .start = some { State.reset with status := .faulted } := by decide
/-- HostWritesOnePlaceInReady, each clause, at the last address and the first outside. -/
theorem witness_HostWritesOnePlaceInReady :
    State.reset.mem.wf = true ∧ State.reset.status = .ready ∧ (coreAt 0 0 []).status ≠ .ready ∧
    (State.reset.hostMove (.writeByte 0xFFF 1)).isSome = true ∧ State.reset.hostMove (.writeByte 0x1000 1) = none ∧
    (State.reset.hostMove .start).isSome = true := by decide
theorem witness_HostStartsTheRun :
    State.reset.status = .ready ∧ (coreAt 0 0 []).status = .running ∧
    (coreAt 0 0 []).hostMove .start = some (coreAt 0 0 []) := by decide
theorem witness_HostReadsTheRegistersAtTheEnd :
    State.output { State.reset with status := .halted } ≠ none ∧ State.reset.output = none ∧
    SameRegs State.reset { State.reset with pc := 2 } ∧ SameRun State.reset { State.reset with pc := 2 } :=
  ⟨by decide, by decide, fun _ => rfl, rfl, rfl, rfl, rfl⟩
theorem witness_ResetIsTheOnlyWayOut :
    State.hostMove { State.reset with status := .halted } .reset = some State.reset ∧
    State.reset.status ≠ .halted := by decide
/-- InvKeptByStep: a running state with the invariant, from which a step answers a next state. -/
theorem witness_InvKeptByStep :
    Inv { State.reset with status := .running } ∧ (after { State.reset with status := .running } fun _ => ()) = some () := by
  refine ⟨⟨by decide, by decide, fun i h => absurd h (Nat.not_lt_zero _), fun h => ?_, fun _ => ⟨rfl, rfl, rfl⟩,
    fun h => ?_, fun h => ?_⟩, by decide⟩ <;> cases h
/-- InvKeptByHost: a state with the invariant, and a host move it admits. -/
theorem witness_InvKeptByHost :
    Inv { State.reset with status := .running } ∧
    (State.hostMove { State.reset with status := .running } .start).isSome = true :=
  ⟨witness_InvKeptByStep.1, by decide⟩
/-- ReachableFaultRecordsAreTrue: reset is reachable, and so is a state in `Faulted` (the host loads 9999 and starts). -/
theorem witness_ReachableFaultRecordsAreTrue : ∃ s, Reachable s ∧ s.status = .faulted := by
  have loaded : Reachable { State.reset with mem := [(0, 0x99)] } :=
    .host (m := .writeByte 0 0x99) .reset (by decide)
  have started : Reachable { State.reset with mem := [(0, 0x99)], status := .running } :=
    .host (m := .start) loaded (by decide)
  exact ⟨_, .step started rfl, rfl⟩
/-- HiddenStackEntriesAreUnobservable: two different states that agree but for a hidden entry. -/
theorem witness_HiddenStackEntriesAreUnobservable :
    AgreeButHidden State.reset { State.reset with stack := Vector.replicate 16 7 } ∧
    State.reset ≠ { State.reset with stack := Vector.replicate 16 7 } :=
  ⟨⟨fun _ => rfl, rfl, rfl, fun _ h => absurd h (Nat.not_lt_zero _), fun _ => rfl, rfl, rfl, rfl, rfl⟩, by decide⟩

end Sys2Proof.Tests
end

section
/-! PROOFS. What one handler and one step can do, said once: the case distinctions from which the statements about the
whole machine follow. -/

namespace Sys2Proof

/-! ### A word is built from its own fields again (R37) -/

theorem wordA_of_cField {w : Opcode} {c : BitVec 4} (hc : (cField w).toNat = c.toNat) : wordA c (addrField w) = w :=
  BitVec.eq_of_toNat_eq (by rw [wordA_toNat, ← hc, cField_toNat, addrField_toNat]; omega)

theorem wordXK_of_cField {w : Opcode} {c : BitVec 4} (hc : (cField w).toNat = c.toNat) :
    wordXK c (xField w) (kkField w) = w :=
  BitVec.eq_of_toNat_eq (by rw [wordXK_toNat, ← hc, cField_toNat, xField_val, kkField_toNat]; omega)

theorem wordXY_of_cField {w : Opcode} {c n : BitVec 4} (hc : (cField w).toNat = c.toNat)
    (hn : (nField w).toNat = n.toNat) : wordXY c (xField w) (yField w) n = w :=
  BitVec.eq_of_toNat_eq
    (by rw [wordXY_toNat, ← hc, ← hn, cField_toNat, xField_val, yField_val, nField_toNat]; omega)

theorem encode_of_decodeSystem {w : Opcode} {i : Instr} (h : decodeSystem w = .instr i) : encode i = w := by
  unfold decodeSystem at h
  split_ifs at h with halt cls ret <;> cases h
  · exact halt.symm
  · exact cls.symm
  · exact ret.symm

theorem encode_of_decodeSkipReg {w : Opcode} {i : Instr} (hc : (cField w).toNat = 5)
    (h : decodeSkipReg w = .instr i) : encode i = w := by
  unfold decodeSkipReg at h
  split_ifs at h with hn
  cases h
  exact wordXY_of_cField hc (congrArg BitVec.toNat hn)

theorem encode_of_decodeAlu {w : Opcode} {i : Instr} (hc : (cField w).toNat = 8) (h : decodeAlu w = .instr i) :
    encode i = w := by
  unfold decodeAlu at h
  split at h <;> cases h <;>
  next hn => exact wordXY_of_cField hc hn

/-- An opcode that decodes is the encoding of what it decodes to. -/
theorem encode_of_decode {w : Opcode} {i : Instr} (h : decode w = .instr i) : encode i = w := by
  unfold decode at h
  split at h
  case h_1 => exact encode_of_decodeSystem h
  case h_6 hc => exact encode_of_decodeSkipReg hc h
  case h_9 hc => exact encode_of_decodeAlu hc h
  case h_10 => cases h
  case h_2 hc | h_3 hc =>
    cases h
    exact wordA_of_cField hc
  case h_4 hc | h_5 hc | h_7 hc | h_8 hc =>
    cases h
    exact wordXK_of_cField hc

theorem decode_eq_halt_iff {w : Opcode} : decode w = .instr .halt ↔ w = 0x0000#16 :=
  ⟨fun h => (encode_of_decode h).symm, fun h => h ▸ rfl⟩

end Sys2Proof

namespace Sys2Proof.Machine

variable {s t : State}

theorem SameMemory.of_mem_eq (h : t.mem = s.mem) : SameMemory s t := fun a => by
  rw [State.memRead, State.memRead, h]

theorem targetOf_toNat_le (addr : Addr) : (targetOf addr).toNat ≤ 4095 := by
  have width : (targetOf addr).toNat = addr.toNat := BitVec.toNat_setWidth_of_le (by decide)
  omega

theorem add_two_toNat_le (p : Word) : (p + 2).toNat ≤ p.toNat + 2 := by
  rw [BitVec.toNat_add]
  exact Nat.mod_le _ _

/-! ### CALL and RET, on either side of their check (R54, R56) -/

theorem execCall_of_free (addr : Addr) (free : s.sp.val < 16) :
    ∃ t, execCall addr s = .next t ∧ t.pc = targetOf addr ∧ t.sp.val = s.sp.val + 1 ∧
      (∀ k : Fin 16, t.entry k = if k.val = s.sp.val then s.pc else s.entry k) ∧
      SameRegs s t ∧ t.mem = s.mem ∧ SameRun s t := by
  obtain ⟨u, push, sp, -, stack, regs, -, run, mem⟩ := State.push_of_space s.pc free
  exact ⟨u.jumpTo (targetOf addr), by rw [execCall, push], rfl, sp, stack, regs, mem, run⟩

theorem execCall_of_full (addr : Addr) (full : s.sp.val = 16) :
    execCall addr s = .next (s.raise .stackOverflow s.ia (encode (.call addr))) := by
  rw [execCall, State.push_of_full s.pc full, State.raiseAt]

theorem execRet_of_outstanding {j : Fin 16} (top : s.sp.val = j.val + 1) :
    ∃ t, execRet s = .next t ∧ t.pc = s.entry j ∧ t.sp.val = j.val ∧ (∀ k, t.entry k = s.entry k) ∧
      SameRegs s t ∧ t.mem = s.mem ∧ SameRun s t := by
  obtain ⟨u, pop, sp, -, stack, regs, -, run, mem⟩ := State.pop_of_outstanding (s := s) (by omega)
  have popped : s.entry ⟨s.sp.val - 1, by omega⟩ = s.entry j := congrArg s.entry (Fin.ext (by simp [top]))
  exact ⟨u.jumpTo (s.entry j), by rw [execRet, pop, popped], rfl, sp.trans (by omega), stack, regs, mem, run⟩

theorem execRet_of_empty (empty : s.sp.val = 0) :
    execRet s = .next (s.raise .stackUnderflow s.ia 0x00EE#16) := by
  rw [execRet, State.pop_of_empty empty]
  rfl

theorem State.sp_free_or_full (s : State) : s.sp.val < 16 ∨ s.sp.val = 16 := by omega

theorem State.sp_empty_or_outstanding (s : State) : s.sp.val = 0 ∨ ∃ j : Fin 16, s.sp.val = j.val + 1 := by
  rcases Nat.eq_zero_or_pos s.sp.val with empty | outstanding
  · exact .inl empty
  · exact .inr ⟨⟨s.sp.val - 1, by omega⟩, by simp only; omega⟩

/-! ### What one handler can do -/

/-- The instructions that neither touch the stack nor can end the run: all but HALT, CALL and RET. -/
def IsPlain : Instr → Prop
  | .halt | .ret | .call _ => False
  | _ => True

/-- Everything the handler of an instruction, entered in `s` with the advanced `pc`, can do (R51 to R69). -/
inductive ExecEffect (s : State) : Instr → State → Prop where
  /-- The run goes on, at the next instruction, past it or at a jump's target; only destinations are written. -/
  | plain {i : Instr} {t : State} (kind : IsPlain i)
      (pc : t.pc = s.pc ∨ t.pc = s.pc + 2 ∨ ∃ addr, t.pc = targetOf addr)
      (regs : ∀ r, r ∉ destinations i → t.reg r = s.reg r) (stack : SameStack s t) (mem : t.mem = s.mem)
      (run : SameRun s t) : ExecEffect s i t
  /-- HALT (R51). -/
  | halts : ExecEffect s .halt s.halt
  /-- CALL with a slot free (R56). -/
  | pushes {addr : Addr} {t : State} (free : s.sp.val < 16) (pc : t.pc = targetOf addr)
      (sp : t.sp.val = s.sp.val + 1)
      (stack : ∀ k : Fin 16, t.entry k = if k.val = s.sp.val then s.pc else s.entry k)
      (regs : SameRegs s t) (mem : t.mem = s.mem) (run : SameRun s t) : ExecEffect s (.call addr) t
  /-- CALL with the stack full (R72). -/
  | overflows {addr : Addr} (full : s.sp.val = 16) :
      ExecEffect s (.call addr) (s.raise .stackOverflow s.ia (encode (.call addr)))
  /-- RET with entry `j` the topmost outstanding one (R54, D12). -/
  | pops {j : Fin 16} {t : State} (top : s.sp.val = j.val + 1) (pc : t.pc = s.entry j) (sp : t.sp.val = j.val)
      (stack : ∀ k, t.entry k = s.entry k) (regs : SameRegs s t) (mem : t.mem = s.mem) (run : SameRun s t) :
      ExecEffect s .ret t
  /-- RET with the stack empty (R73). -/
  | underflows (empty : s.sp.val = 0) : ExecEffect s .ret (s.raise .stackUnderflow s.ia 0x00EE#16)

theorem ExecEffect.of_jumpTo {i : Instr} {p : Word} (kind : IsPlain i)
    (pc : p = s.pc ∨ p = s.pc + 2 ∨ ∃ addr, p = targetOf addr) : ExecEffect s i (s.jumpTo p) :=
  .plain kind pc (fun _ _ => rfl) ⟨rfl, fun _ => rfl⟩ rfl ⟨rfl, rfl, rfl, rfl⟩

theorem ExecEffect.of_skipIf {i : Instr} (c : Prop) [Decidable c] (kind : IsPlain i) :
    ExecEffect s i (s.skipIf c) := by
  rw [State.skipIf_eq]
  refine .of_jumpTo kind ?_
  split
  · exact .inr (.inl rfl)
  · exact .inl rfl

theorem ExecEffect.of_setReg {i : Instr} {x : RegIdx} {v : Byte} (kind : IsPlain i) (dest : x ∈ destinations i) :
    ExecEffect s i (s.setReg x v) :=
  .plain kind (.inl rfl) (fun _ h => State.setReg_reg_of_ne s (ne_of_mem_of_not_mem dest h).symm v)
    ⟨rfl, fun _ => rfl⟩ rfl ⟨rfl, rfl, rfl, rfl⟩

theorem execAddReg_effect (x y : RegIdx) : ∃ t, execAddReg x y s = .next t ∧ ExecEffect s (.addReg x y) t := by
  refine ⟨_, rfl, .plain trivial (.inl rfl) (fun r h => ?_) ⟨rfl, fun _ => rfl⟩ rfl ⟨rfl, rfl, rfl, rfl⟩⟩
  obtain ⟨notX, notVf⟩ : r ≠ x ∧ r ≠ Config.vf := by simpa [destinations] using h
  rw [State.setCarry, State.setReg_reg_of_ne _ notVf, State.combine, State.setReg_reg_of_ne _ notX]

/-- Every handler answers a next state, and one of the cases of `ExecEffect` says which. -/
theorem exec_effect (i : Instr) (s : State) : ∃ t, exec i s = .next t ∧ ExecEffect s i t := by
  cases i with
  | halt => exact ⟨_, rfl, .halts⟩
  | cls => exact ⟨s.jumpTo s.pc, rfl, .of_jumpTo trivial (.inl rfl)⟩
  | ret =>
    rcases s.sp_empty_or_outstanding with empty | ⟨j, top⟩
    · exact ⟨_, execRet_of_empty empty, .underflows empty⟩
    · obtain ⟨t, ht, pc, sp, stack, regs, mem, run⟩ := execRet_of_outstanding top
      exact ⟨t, ht, .pops top pc sp stack regs mem run⟩
  | jp addr => exact ⟨_, rfl, .of_jumpTo trivial (.inr (.inr ⟨addr, rfl⟩))⟩
  | call addr =>
    rcases s.sp_free_or_full with free | full
    · obtain ⟨t, ht, pc, sp, stack, regs, mem, run⟩ := execCall_of_free addr free
      exact ⟨t, ht, .pushes free pc sp stack regs mem run⟩
    · exact ⟨_, execCall_of_full addr full, .overflows full⟩
  | seImm x kk | sneImm x kk | seReg x y => exact ⟨_, rfl, .of_skipIf _ trivial⟩
  | ldImm x kk | addImm x kk | ldReg x y | orReg x y | andReg x y | xorReg x y =>
    exact ⟨_, rfl, .of_setReg trivial (List.mem_singleton_self x)⟩
  | addReg x y => exact execAddReg_effect x y

/-! ### What one step can do -/

/-- Everything a step of the running core can do: a fault of the fetch, a fault of the dispatch, or one handler, run
on the advanced state (R40). -/
inductive StepEffect (s : State) : State → Prop where
  /-- No opcode can be fetched (R75). -/
  | noFetch (fetch : s.fetchAt s.pc = none) : StepEffect s (s.raise .fetchOutOfBounds s.pc 0x0000#16)
  /-- The opcode fetched is no instruction (R74). -/
  | unknown {w : Opcode} {why : IllegalOpcode} (fetch : s.fetchAt s.pc = some w) (illegal : decode w = .illegal why) :
      StepEffect s (s.advance.raise .unknownOpcode s.pc w)
  /-- The handler of the instruction fetched runs (R44). -/
  | ran {w : Opcode} {i : Instr} {t : State} (fetch : s.fetchAt s.pc = some w) (instr : decode w = .instr i)
      (effect : ExecEffect s.advance i t) : StepEffect s t

/-- Every step of the running core answers a next state, and one of the cases of `StepEffect` says which. -/
theorem step_effect (running : s.status = .running) : ∃ t, step s = .next t ∧ StepEffect s t := by
  cases fetch : s.fetchAt s.pc with
  | none => exact ⟨_, step_of_no_fetch running fetch, .noFetch fetch⟩
  | some w =>
    cases decoded : decode w with
    | illegal why => exact ⟨_, step_of_illegal running fetch decoded, .unknown fetch decoded⟩
    | instr i =>
      obtain ⟨t, ht, effect⟩ := exec_effect i s.advance
      exact ⟨t, (step_of_instr running fetch decoded).trans ht, .ran fetch decoded effect⟩

theorem effect_of_step (h : step s = .next t) : StepEffect s t := by
  obtain ⟨u, hu, effect⟩ := step_effect (running_of_step h)
  cases hu.symm.trans h
  exact effect

/-- In every status but `Running` a step answers a fault, which the status alone decides (log 1). -/
theorem step_fault_of_not_running (h : s.status ≠ .running) :
    ∃ r, ∀ t : State, t.status = s.status → step t = .fault r := by
  cases status : s.status with
  | ready => exact ⟨.notStarted, fun t ht => by rw [step, ht]⟩
  | running => exact absurd status h
  | halted => exact ⟨.afterHalt, fun t ht => by rw [step, ht]⟩
  | faulted => exact ⟨.afterFault, fun t ht => by rw [step, ht]⟩

/-! ### What a host move can do (R91, R92) -/

theorem hostMove_writeByte {a : Nat} {v : Byte} (h : s.hostMove (.writeByte a v) = some t) :
    s.status = .ready ∧ a < 4096 ∧ t = { s with mem := s.mem.write a v } := by
  simp only [State.hostMove] at h
  split at h
  next ready => exact ⟨ready.1, State.memWrite_spec h⟩
  next => cases h

theorem hostMove_writeReg {i : RegIdx} {v : Byte} (h : s.hostMove (.writeReg i v) = some t) :
    s.status = .ready ∧ t = s.setReg i v := by
  simp only [State.hostMove] at h
  split at h
  next ready => exact ⟨ready, (Option.some.inj h).symm⟩
  next => cases h

theorem hostMove_reset (h : s.hostMove .reset = some t) : s.status ≠ .running ∧ t = State.reset := by
  simp only [State.hostMove] at h
  split at h
  next => cases h
  next notRunning => exact ⟨notRunning, (Option.some.inj h).symm⟩

theorem hostStart_of_ready (h : s.status = .ready) : s.hostStart = { s with status := .running } := by
  rw [State.hostStart, h]

theorem hostStart_of_not_ready (h : s.status ≠ .ready) : s.hostStart = s := by
  unfold State.hostStart
  split
  next ready => exact absurd ready h
  all_goals rfl

end Sys2Proof.Machine
end

section
/-! PROOFS. Rules about the whole machine: registers, stack and run status, from the cases of a step. -/

namespace Sys2Proof.Machine

variable {s t : State}

/-! ### Registers -/

theorem ExecEffect.reg_of_not_mem {i : Instr} (effect : ExecEffect s i t) {r : RegIdx} (h : r ∉ destinations i) :
    t.reg r = s.reg r := by
  cases effect with
  | plain _ _ regs => exact regs r h
  | pushes _ _ _ _ regs | pops _ _ _ _ regs => exact regs r
  | halts | overflows | underflows => rfl

/-- Settles O31: a fault writes no register, and each handler only its destinations. -/
theorem onlyDestinationRegistersChange : Obligations.OnlyDestinationRegistersChange := by
  unfold Obligations.OnlyDestinationRegistersChange
  intro s t h r notDest
  cases effect_of_step h with
  | noFetch | unknown => rfl
  | ran fetch instr effect => exact effect.reg_of_not_mem (notDest _ _ fetch instr)

/-! ### The stack -/

/-- The step is a CALL with a slot free. -/
def StepCalls (s : State) : Prop :=
  s.sp.val < 16 ∧ ∃ w addr, s.fetch = some w ∧ decode w = .instr (.call addr)

/-- The step is a RET with an entry outstanding. -/
def StepReturns (s : State) : Prop :=
  0 < s.sp.val ∧ ∃ w, s.fetch = some w ∧ decode w = .instr .ret

theorem stepCalls_iff {w : Opcode} {i : Instr} (fetch : s.fetch = some w) (instr : decode w = .instr i) :
    StepCalls s ↔ s.sp.val < 16 ∧ ∃ addr, i = .call addr := by
  simp [StepCalls, fetch, instr]

theorem stepReturns_iff {w : Opcode} {i : Instr} (fetch : s.fetch = some w) (instr : decode w = .instr i) :
    StepReturns s ↔ 0 < s.sp.val ∧ i = .ret := by
  simp [StepReturns, fetch, instr]

/-- What a step that calls, returns, or does neither makes of `sp` and the entries. -/
def StackMoves (called returned : Prop) (s t : State) : Prop :=
  (called → t.sp.val = s.sp.val + 1) ∧ (returned → t.sp.val + 1 = s.sp.val) ∧ (¬called → ¬returned → t.sp = s.sp) ∧
    (∀ k : Fin 16, called → k.val = s.sp.val → t.entry k = s.pc + 2) ∧
    (∀ k : Fin 16, (called → k.val ≠ s.sp.val) → t.entry k = s.entry k)

theorem StackMoves.of_same {called returned : Prop} (notCalled : ¬called) (notReturned : ¬returned)
    (same : SameStack s t) : StackMoves called returned s t :=
  ⟨fun h => absurd h notCalled, fun h => absurd h notReturned, fun _ _ => same.1, fun _ h => absurd h notCalled,
    fun k _ => same.2 k⟩

/-- A handler moves the stack as its instruction says: CALL with a slot free, RET with an entry outstanding. -/
theorem ExecEffect.stackMoves {i : Instr} (effect : ExecEffect s.advance i t) :
    StackMoves (s.sp.val < 16 ∧ ∃ addr, i = .call addr) (0 < s.sp.val ∧ i = .ret) s t := by
  cases effect with
  | plain kind _ _ stack =>
    refine .of_same ?_ ?_ stack
    · rintro ⟨-, addr, rfl⟩
      exact kind
    · rintro ⟨-, rfl⟩
      exact kind
  | halts => exact .of_same (by simp) (by simp) ⟨rfl, fun _ => rfl⟩
  | overflows full =>
    exact .of_same (fun h => h.1.ne full) (by simp) ⟨rfl, fun _ => rfl⟩
  | underflows empty =>
    exact .of_same (by simp) (fun h => h.1.ne' empty) ⟨rfl, fun _ => rfl⟩
  | @pushes addr _ free _ sp stack =>
    have called : s.sp.val < 16 ∧ ∃ target, Instr.call addr = .call target := ⟨free, addr, rfl⟩
    refine ⟨fun _ => sp, by simp, fun h => absurd called h, fun k _ hk => ?_, fun k hk => ?_⟩
    · exact (stack k).trans (if_pos hk)
    · exact (stack k).trans (if_neg (hk called))
  | pops top _ sp stack =>
    have sp_eq : s.sp.val = t.sp.val + 1 := by rw [sp]; exact top
    refine ⟨by simp, fun _ => sp_eq.symm, fun _ h => absurd ⟨by omega, rfl⟩ h, by simp, fun k _ => stack k⟩

/-- Settles O32: only the handlers of CALL and RET move the stack, and a fault leaves it. -/
theorem stackChangesOnlyInCallAndReturn : Obligations.StackChangesOnlyInCallAndReturn := by
  unfold Obligations.StackChangesOnlyInCallAndReturn
  intro s t h
  suffices moves : StackMoves (StepCalls s) (StepReturns s) s t from ⟨_, _, Iff.rfl, Iff.rfl, moves⟩
  cases effect_of_step h with
  | noFetch fetch =>
    have noFetch : s.fetch = none := fetch
    exact .of_same (by simp [StepCalls, noFetch]) (by simp [StepReturns, noFetch]) ⟨rfl, fun _ => rfl⟩
  | unknown fetch illegal =>
    have fetched : s.fetch = some _ := fetch
    exact .of_same (by simp [StepCalls, fetched, illegal]) (by simp [StepReturns, fetched, illegal])
      ⟨rfl, fun _ => rfl⟩
  | ran fetch instr effect =>
    rw [stepCalls_iff fetch instr, stepReturns_iff fetch instr]
    exact effect.stackMoves

/-! ### The run status (R16) -/

/-- A handler ends the run only as HALT does, or in a fault that records its cause; it never goes back to `Ready`. -/
theorem ExecEffect.status {i : Instr} (effect : ExecEffect s i t) (running : s.status = .running) :
    t.status ≠ .ready ∧ (t.status = .halted ↔ i = .halt) ∧ (t.status = .faulted → t.faultCause ≠ none) := by
  cases effect with
  | halts => simp
  | overflows | underflows => simp
  | plain kind _ _ _ _ run =>
    have notHalt : i ≠ .halt := fun h => by rw [h] at kind; exact kind
    simp [run.1, running, notHalt]
  | pushes _ _ _ _ _ _ run | pops _ _ _ _ _ _ run => simp [run.1, running]

theorem StepEffect.status (effect : StepEffect s t) (running : s.status = .running) :
    t.status ≠ .ready ∧ (t.status = .halted ↔ s.fetch = some 0x0000#16) ∧
      (t.status = .faulted → t.faultCause ≠ none) := by
  cases effect with
  | noFetch fetch => simp [State.fetch, fetch]
  | @unknown w _ fetch illegal =>
    have notHalt : w ≠ 0x0000#16 := fun h => by
      rw [decode_eq_halt_iff.mpr h] at illegal
      cases illegal
    simp [State.fetch, fetch, notHalt]
  | ran fetch instr effect =>
    simpa [State.fetch, fetch, ← decode_eq_halt_iff, instr] using effect.status running

/-- After the run has ended every host move but a reset leaves the state as it is (R91, R92). -/
theorem hostMove_of_ended {m : HostMove} (ended : s.status = .halted ∨ s.status = .faulted)
    (move : s.hostMove m = some t) (notReset : m ≠ .reset) : t = s := by
  have notReady : s.status ≠ .ready := fun ready => by simp [ready] at ended
  cases m with
  | writeByte a v => exact absurd (hostMove_writeByte move).1 notReady
  | writeReg i v => exact absurd (hostMove_writeReg move).1 notReady
  | start => exact (Option.some.inj move).symm.trans (hostStart_of_not_ready notReady)
  | reset => exact absurd rfl notReset

/-- Settles O44: a step exists exactly in `Running`, and its cases say which status it leaves. -/
theorem stepsHappenOnlyInRunning : Obligations.StepsHappenOnlyInRunning := by
  unfold Obligations.StepsHappenOnlyInRunning
  refine ⟨rfl, fun s => ⟨fun ⟨_, h⟩ => running_of_step h, fun running => ?_⟩,
    fun s t h => (effect_of_step h).status (running_of_step h), fun _ _ _ => hostMove_of_ended⟩
  obtain ⟨t, h, -⟩ := step_effect running
  exact ⟨t, h⟩

end Sys2Proof.Machine
end

section
/-! PROOFS. The invariant: every handler, step and host move keeps it, so it holds of every reachable state. -/

namespace Sys2Proof.Machine

variable {s t : State}

/-! ### What keeps the invariant -/

/-- A running core that runs on keeps the invariant if `pc` and the outstanding entries stay in range. -/
theorem Inv.of_sameRun (inv : Inv s) (running : s.status = .running) (run : SameRun s t) (mem : t.mem = s.mem)
    (pcRange : t.pc.toNat ≤ 4098) (returns : ∀ k : Fin 16, k.val < t.sp.val → (t.entry k).toNat ≤ 4096) : Inv t := by
  obtain ⟨status, cause, faultPc, opcode⟩ := run
  have still : t.status = .running := status.trans running
  obtain ⟨noCause, noPc, noOpcode⟩ := inv.noRecord (by simp [running])
  exact {
    memory := mem ▸ inv.memory
    pcRange
    returns
    unstarted := by simp [still]
    noRecord := fun _ => ⟨cause.trans noCause, faultPc.trans noPc, opcode.trans noOpcode⟩
    record := by simp [still]
    haltedAt := by simp [still] }

/-- Fault entry keeps the invariant if the record it leaves is true. -/
theorem Inv.raise {f : FaultCause} {p : Word} {o : Opcode} (inv : Inv s) (record : FaultRecordTrue (s.raise f p o)) :
    Inv (s.raise f p o) where
  memory := inv.memory
  pcRange := inv.pcRange
  returns := inv.returns
  unstarted := by simp
  noRecord := by simp
  record := fun _ => record
  haltedAt := by simp

theorem Inv.halt (inv : Inv s) (running : s.status = .running) (fetch : s.fetchAt (s.pc - 2) = some 0x0000#16) :
    Inv s.halt where
  memory := inv.memory
  pcRange := inv.pcRange
  returns := inv.returns
  unstarted := by simp
  noRecord := fun _ => inv.noRecord (by simp [running])
  record := by simp
  haltedAt := fun _ => fetch

theorem Inv.advance {w : Opcode} (inv : Inv s) (running : s.status = .running) (fetch : s.fetchAt s.pc = some w) :
    Inv s.advance ∧ s.advance.pc.toNat ≤ 4096 := by
  have pc : s.advance.pc.toNat ≤ 4096 := by
    rw [State.advance_pc, State.advance_toNat fetch]
    exact Nat.add_le_add_right (State.fetchAt_le fetch) 2
  exact ⟨inv.of_sameRun running ⟨rfl, rfl, rfl, rfl⟩ rfl (by omega) inv.returns, pc⟩

theorem State.pc_eq_ia_add (s : State) : s.pc = s.ia + 2 := (BitVec.sub_add_cancel s.pc 2).symm

/-- Every handler keeps the invariant, entered after the instruction it belongs to has been fetched. -/
theorem Inv.exec {w : Opcode} {i : Instr} (inv : Inv s) (running : s.status = .running) (pc : s.pc.toNat ≤ 4096)
    (fetch : s.fetchAt s.ia = some w) (instr : decode w = .instr i) (effect : ExecEffect s i t) : Inv t := by
  have encoded : encode i = w := encode_of_decode instr
  subst encoded
  cases effect with
  | plain _ target _ stack mem run =>
    refine inv.of_sameRun running run mem ?_ fun k hk => ?_
    · rcases target with next | skip | ⟨addr, jump⟩
      · exact next ▸ pc.trans (by decide)
      · exact skip ▸ (add_two_toNat_le s.pc).trans (by omega)
      · exact jump ▸ (targetOf_toNat_le addr).trans (by decide)
    · rw [stack.2]
      exact inv.returns k (by rwa [← stack.1])
  | halts => exact inv.halt running fetch
  | @pushes addr _ _ jump sp stack _ mem run =>
    refine inv.of_sameRun running run mem ?_ fun k hk => ?_
    · exact jump ▸ (targetOf_toNat_le addr).trans (by decide)
    · rw [stack]
      split
      next => exact pc
      next below => exact inv.returns k (by omega)
  | overflows full => exact inv.raise ⟨s.pc_eq_ia_add, fetch, full, _, instr⟩
  | @pops j _ top back sp stack _ mem run =>
    refine inv.of_sameRun running run mem ?_ fun k hk => ?_
    · exact back ▸ (inv.returns j (by omega)).trans (by decide)
    · rw [stack]
      exact inv.returns k (by omega)
  | underflows empty => exact inv.raise ⟨s.pc_eq_ia_add, fetch, empty, rfl⟩

/-- Settles O50: fault entry leaves a true record, and a handler starts from the invariant of the advanced state. -/
theorem invKeptByStep : Obligations.InvKeptByStep := by
  unfold Obligations.InvKeptByStep
  intro s t inv h
  have running := running_of_step h
  cases effect_of_step h with
  | noFetch fetch => exact inv.raise ⟨rfl, fetch, rfl⟩
  | unknown fetch illegal => exact (inv.advance running fetch).1.raise ⟨rfl, fetch, _, illegal⟩
  | ran fetch instr effect =>
    obtain ⟨advanced, pc⟩ := inv.advance running fetch
    exact advanced.exec running pc (s.advance_ia ▸ fetch) instr effect

/-! ### Reset and the host -/

theorem Inv.reset : Inv State.reset where
  memory := rfl
  pcRange := by decide
  returns := fun _ h => absurd h (Nat.not_lt_zero _)
  unstarted := fun _ => ⟨rfl, rfl⟩
  noRecord := fun _ => ⟨rfl, rfl, rfl⟩
  record := fun h => by cases h
  haltedAt := fun h => by cases h

/-- What the host changes in `Ready`: registers, memory and, by a start, the status; the invariant asks of these only
canonical memory, and that the run has not ended. -/
theorem Inv.of_ready (inv : Inv s) (ready : s.status = .ready) (status : t.status = .ready ∨ t.status = .running)
    (memory : t.mem.wf = true) (pc : t.pc = s.pc) (sp : t.sp = s.sp) (record : SameFaultRecord s t) : Inv t := by
  obtain ⟨entry, empty⟩ := inv.unstarted ready
  obtain ⟨cause, faultPc, opcode⟩ := record
  obtain ⟨noCause, noPc, noOpcode⟩ := inv.noRecord (by simp [ready])
  exact {
    memory
    pcRange := pc ▸ inv.pcRange
    returns := fun k hk => by omega
    unstarted := fun _ => ⟨pc.trans entry, sp ▸ empty⟩
    noRecord := fun _ => ⟨cause.trans noCause, faultPc.trans noPc, opcode.trans noOpcode⟩
    record := fun h => by simp [h] at status
    haltedAt := fun h => by simp [h] at status }

theorem Inv.hostStart (inv : Inv s) : Inv s.hostStart := by
  by_cases ready : s.status = .ready
  · rw [hostStart_of_ready ready]
    exact inv.of_ready ready (.inr rfl) inv.memory rfl rfl ⟨rfl, rfl, rfl⟩
  · rwa [hostStart_of_not_ready ready]

/-- Every host move keeps the invariant. -/
theorem Inv.hostMove {m : HostMove} (inv : Inv s) (move : s.hostMove m = some t) : Inv t := by
  cases m with
  | writeByte a v =>
    obtain ⟨ready, inMemory, rfl⟩ := hostMove_writeByte move
    exact inv.of_ready ready (.inl ready) (Memory.wf_write inv.memory inMemory v) rfl rfl ⟨rfl, rfl, rfl⟩
  | writeReg i v =>
    obtain ⟨ready, rfl⟩ := hostMove_writeReg move
    exact inv.of_ready ready (.inl ready) inv.memory rfl rfl ⟨rfl, rfl, rfl⟩
  | start =>
    obtain rfl : s.hostStart = t := Option.some.inj move
    exact inv.hostStart
  | reset =>
    obtain ⟨-, rfl⟩ := hostMove_reset move
    exact .reset

theorem Inv.of_reachable (h : Reachable s) : Inv s := by
  induction h with
  | reset => exact .reset
  | step _ h inv => exact invKeptByStep _ _ inv h
  | host _ move inv => exact inv.hostMove move

/-- Settles O52: reachable states satisfy the invariant, of which this is a part. -/
theorem reachableFaultRecordsAreTrue : Obligations.ReachableFaultRecordsAreTrue := by
  unfold Obligations.ReachableFaultRecordsAreTrue
  intro s h
  have inv := Inv.of_reachable h
  exact ⟨inv.pcRange, inv.memory, inv.record⟩

end Sys2Proof.Machine
end

section
/-! PROOFS. Stack entries at or above `sp` are unobservable: each operation takes states that agree but for them to
states that agree but for them, hence so does each handler, each step and each run (R15). -/

namespace Sys2Proof.Machine

variable {s t : State}

namespace AgreeButHidden

theorem regs (agree : AgreeButHidden s t) : SameRegs s t := agree.1

theorem pc (agree : AgreeButHidden s t) : t.pc = s.pc := agree.2.1

theorem sp (agree : AgreeButHidden s t) : t.sp = s.sp := agree.2.2.1

theorem stack (agree : AgreeButHidden s t) (k : Fin 16) (outstanding : k.val < s.sp.val) : t.entry k = s.entry k := by
  obtain ⟨-, -, -, entries, -⟩ := agree
  exact entries k outstanding

theorem status (agree : AgreeButHidden s t) : t.status = s.status := by
  obtain ⟨-, -, -, -, -, run⟩ := agree
  exact run.1

theorem ia (agree : AgreeButHidden s t) : t.ia = s.ia := congrArg (· - 2) agree.pc

theorem fetchAt (agree : AgreeButHidden s t) : t.fetchAt t.pc = s.fetchAt s.pc := by
  obtain ⟨-, pc, -, -, mem, -⟩ := agree
  rw [pc, State.fetchAt_congr mem]

/-- The host reads nothing that is hidden (R93). -/
theorem output (agree : AgreeButHidden s t) : t.output = s.output := by
  obtain ⟨regs, -, -, -, -, status, cause, faultPc, opcode⟩ := agree
  rw [State.output, State.output, status, cause, faultPc, opcode, State.regs_ext regs]

/-! ### Operations that leave the stack alone -/

theorem jumpTo (agree : AgreeButHidden s t) {p q : Word} (h : q = p) : AgreeButHidden (s.jumpTo p) (t.jumpTo q) := by
  obtain ⟨regs, -, rest⟩ := agree
  exact ⟨regs, h, rest⟩

theorem advance (agree : AgreeButHidden s t) : AgreeButHidden s.advance t.advance := by
  obtain ⟨regs, pc, rest⟩ := agree
  exact ⟨regs, congrArg (· + 2) pc, rest⟩

theorem skipIf (agree : AgreeButHidden s t) {c d : Prop} [Decidable c] [Decidable d] (h : d ↔ c) :
    AgreeButHidden (s.skipIf c) (t.skipIf d) := by
  rw [State.skipIf_eq, State.skipIf_eq, agree.pc]
  exact agree.jumpTo (if_congr h rfl rfl)

theorem setReg (agree : AgreeButHidden s t) (x : RegIdx) {v u : Byte} (h : u = v) :
    AgreeButHidden (s.setReg x v) (t.setReg x u) := by
  obtain ⟨regs, rest⟩ := agree
  exact ⟨fun r => by rw [State.setReg_reg, State.setReg_reg, h, regs r], rest⟩

theorem combine (agree : AgreeButHidden s t) (x y : RegIdx) (f : Byte → Byte → Byte) :
    AgreeButHidden (s.combine x y f) (t.combine x y f) :=
  agree.setReg x (congrArg₂ f (agree.regs x) (agree.regs y))

theorem halt (agree : AgreeButHidden s t) : AgreeButHidden s.halt t.halt := by
  obtain ⟨regs, pc, sp, stack, mem, -, record⟩ := agree
  exact ⟨regs, pc, sp, stack, mem, rfl, record⟩

theorem raise (agree : AgreeButHidden s t) (f : FaultCause) {p q : Word} (o : Opcode) (h : q = p) :
    AgreeButHidden (s.raise f p o) (t.raise f q o) := by
  obtain ⟨regs, pc, sp, stack, mem, -⟩ := agree
  exact ⟨regs, pc, sp, stack, mem, rfl, rfl, h, rfl⟩

/-- Two moves that change `pc`, `sp` and stack entries alike, but for hidden ones, and nothing else. -/
theorem of_stack_moves {s' t' : State} (agree : AgreeButHidden s t)
    (left : SameRegs s s' ∧ s'.mem = s.mem ∧ SameRun s s') (right : SameRegs t t' ∧ t'.mem = t.mem ∧ SameRun t t')
    (pc : t'.pc = s'.pc) (sp : t'.sp.val = s'.sp.val)
    (stack : ∀ k : Fin 16, k.val < s'.sp.val → t'.entry k = s'.entry k) : AgreeButHidden s' t' := by
  obtain ⟨regs, -, -, -, mem, status, cause, faultPc, opcode⟩ := agree
  obtain ⟨regsL, memL, statusL, causeL, faultPcL, opcodeL⟩ := left
  obtain ⟨regsR, memR, statusR, causeR, faultPcR, opcodeR⟩ := right
  refine ⟨fun r => ?_, pc, Fin.ext sp, stack, fun a => ?_, ?_, ?_, ?_, ?_⟩
  · rw [regsR, regs, regsL]
  · rw [SameMemory.of_mem_eq memR, mem, SameMemory.of_mem_eq memL]
  · rw [statusR, status, statusL]
  · rw [causeR, cause, causeL]
  · rw [faultPcR, faultPc, faultPcL]
  · rw [opcodeR, opcode, opcodeL]

end AgreeButHidden

/-! ### Handlers -/

/-- Both outcomes are next states, which agree but for hidden entries. -/
def NextAgree (a b : Host.Outcome State Fault Refusal) : Prop :=
  ∃ s t, a = .next s ∧ b = .next t ∧ AgreeButHidden s t

theorem AgreeButHidden.next (agree : AgreeButHidden s t) : NextAgree (.next s) (.next t) :=
  ⟨s, t, rfl, rfl, agree⟩

/-- A CALL writes the same address to the same slot on both sides; the slot was hidden before. -/
theorem AgreeButHidden.execCall (agree : AgreeButHidden s t) (addr : Addr) :
    NextAgree (execCall addr s) (execCall addr t) := by
  have sp := agree.sp
  rcases s.sp_free_or_full with free | full
  · obtain ⟨s', hs, pcS, spS, stackS, frameS⟩ := execCall_of_free addr free
    obtain ⟨t', ht, pcT, spT, stackT, frameT⟩ := execCall_of_free (s := t) addr (by rwa [sp])
    refine ⟨s', t', hs, ht, agree.of_stack_moves frameS frameT (pcT.trans pcS.symm) (by rw [spT, spS, sp]) ?_⟩
    intro k hk
    rw [stackS, stackT, sp, agree.pc]
    split
    next => rfl
    next below => exact agree.stack k (by omega)
  · rw [execCall_of_full addr full, execCall_of_full addr (by rwa [sp])]
    exact (agree.raise _ _ agree.ia).next

/-- A RET pops an entry that is outstanding, on which the two sides agree. -/
theorem AgreeButHidden.execRet (agree : AgreeButHidden s t) : NextAgree (execRet s) (execRet t) := by
  have sp := agree.sp
  rcases s.sp_empty_or_outstanding with empty | ⟨j, top⟩
  · rw [execRet_of_empty empty, execRet_of_empty (by rwa [sp])]
    exact (agree.raise _ _ agree.ia).next
  · obtain ⟨s', hs, pcS, spS, stackS, frameS⟩ := execRet_of_outstanding top
    obtain ⟨t', ht, pcT, spT, stackT, frameT⟩ := execRet_of_outstanding (s := t) (j := j) (by rwa [sp])
    refine ⟨s', t', hs, ht, agree.of_stack_moves frameS frameT ?_ (spT.trans spS.symm) fun k hk => ?_⟩
    · rw [pcT, pcS, agree.stack j (by omega)]
    · rw [stackT, stackS, agree.stack k (by omega)]

theorem AgreeButHidden.exec (agree : AgreeButHidden s t) (i : Instr) : NextAgree (exec i s) (exec i t) := by
  have regs := agree.regs
  cases i with
  | halt => exact agree.halt.next
  | cls => exact agree.next
  | ret => exact agree.execRet
  | jp addr => exact (agree.jumpTo rfl).next
  | call addr => exact agree.execCall addr
  | seImm x kk | sneImm x kk => exact (agree.skipIf (by rw [regs x])).next
  | seReg x y => exact (agree.skipIf (by rw [regs x, regs y])).next
  | ldImm x kk => exact (agree.setReg x rfl).next
  | addImm x kk => exact (agree.setReg x (by rw [regs x])).next
  | ldReg x y | orReg x y | andReg x y | xorReg x y => exact (agree.combine x y _).next
  | addReg x y =>
    exact ((agree.combine x y wrappedSum).setReg Config.vf (congrArg₂ carryOut (regs x) (regs y))).next

/-! ### Steps and runs -/

theorem AgreeButHidden.step (agree : AgreeButHidden s t) (running : s.status = .running) :
    NextAgree (step s) (step t) := by
  have runningT : t.status = .running := agree.status.trans running
  cases fetch : s.fetchAt s.pc with
  | none =>
    rw [step_of_no_fetch running fetch, step_of_no_fetch runningT (agree.fetchAt.trans fetch)]
    exact (agree.raise _ _ agree.pc).next
  | some w =>
    have fetchT := agree.fetchAt.trans fetch
    cases decoded : decode w with
    | illegal why =>
      rw [step_of_illegal running fetch decoded, step_of_illegal runningT fetchT decoded]
      exact (agree.advance.raise _ _ agree.pc).next
    | instr i =>
      rw [step_of_instr running fetch decoded, step_of_instr runningT fetchT decoded]
      exact agree.advance.exec i

/-- Settles O53, by induction on the number of steps: a step in `Running` keeps the agreement, and in every other
status both runs stop by the same name. -/
theorem hiddenStackEntriesAreUnobservable : Obligations.HiddenStackEntriesAreUnobservable := by
  unfold Obligations.HiddenStackEntriesAreUnobservable
  intro k
  induction k with
  | zero => exact fun s t agree => ⟨agree, agree.output⟩
  | succ k ih =>
    intro s t agree
    by_cases running : s.status = .running
    · obtain ⟨s', t', hs, ht, agree'⟩ := agree.step running
      rw [core_run_of_next hs, core_run_of_next ht]
      exact ih s' t' agree'
    · obtain ⟨r, stops⟩ := step_fault_of_not_running running
      rw [core_run_of_fault (stops s rfl), core_run_of_fault (stops t agree.status)]
      exact rfl

end Sys2Proof.Machine
end

section
/-! PROOFS. Memory: a fetch is big-endian, and no handler, step or run writes a byte (R24, R25, R30). -/

namespace Sys2Proof.Machine

variable {s t : State}

/-! ### Reading and fetching -/

theorem State.memRead_of_lt {a : Nat} (ha : a < 4096) : s.memRead a = some (s.mem.read a) := if_pos ha

theorem State.fetchAt_of_le {p : Word} (hp : p.toNat ≤ 4094) :
    s.fetchAt p = some (opcodeOfBytes (s.mem.read p.toNat) (s.mem.read (p.toNat + 1))) :=
  if_pos (by omega)

theorem opcodeOfBytes_toNat (hi lo : Byte) : (opcodeOfBytes hi lo).toNat = hi.toNat * 256 + lo.toNat :=
  append_toNat hi lo

/-- Settles O11: the two bytes of a fetch are those memory reads at `p` and `p + 1`, the first more significant. -/
theorem fetchIsBigEndian : Obligations.FetchIsBigEndian := by
  unfold Obligations.FetchIsBigEndian
  intro s p
  constructor
  · intro hp
    exact ⟨_, _, _, State.memRead_of_lt (by omega), State.memRead_of_lt (by omega), State.fetchAt_of_le hp,
      opcodeOfBytes_toNat _ _⟩
  · exact State.fetchAt_eq_none.mpr

/-! ### What no step writes -/

theorem ExecEffect.mem_eq {i : Instr} (effect : ExecEffect s i t) : t.mem = s.mem := by
  cases effect with
  | plain _ _ _ _ mem | pushes _ _ _ _ _ mem | pops _ _ _ _ _ mem => exact mem
  | halts | overflows | underflows => rfl

theorem mem_eq_of_step (h : step s = .next t) : t.mem = s.mem := by
  cases effect_of_step h with
  | noFetch | unknown => rfl
  | ran _ _ effect => exact effect.mem_eq

/-- Settles O33: no step changes the memory list, and the host's byte write checks the status and the address. -/
theorem memoryIsWrittenOnlyByTheHostInReady : Obligations.MemoryIsWrittenOnlyByTheHostInReady := by
  unfold Obligations.MemoryIsWrittenOnlyByTheHostInReady
  refine ⟨fun s t h => SameMemory.of_mem_eq (mem_eq_of_step h), fun s t a v move => ?_⟩
  obtain ⟨ready, inMemory, -⟩ := hostMove_writeByte move
  exact ⟨ready, Nat.le_of_lt_succ inMemory⟩

/-! ### Runs -/

theorem mem_eq_of_core_run {k : Nat} (h : Sys2Proof.core.run k s = .next t) : t.mem = s.mem := by
  induction k generalizing s with
  | zero =>
    obtain rfl : s = t := Host.Outcome.next.inj h
    rfl
  | succ k ih =>
    obtain ⟨u, first, rest⟩ := step_of_core_run h
    exact (ih rest).trans (mem_eq_of_step first)

/-- Settles O34: a run leaves memory as it found it, and a fetch reads memory only. -/
theorem fetchIsTheSameAllThroughARun : Obligations.FetchIsTheSameAllThroughARun := by
  unfold Obligations.FetchIsTheSameAllThroughARun
  exact fun _ _ _ h => State.fetchAt_congr (SameMemory.of_mem_eq (mem_eq_of_core_run h))

end Sys2Proof.Machine
end

section
/-! PROOFS. Encoding and decoding: the decoder answers by the one row of the opcode map that an opcode selects, and
rejects exactly the opcodes that select none (R44 to R49). -/

namespace Sys2Proof

variable {w p : Opcode}

theorem cField_toNat_eq_div (w : Opcode) : (cField w).toNat = w.toNat / 4096 := by
  rw [cField_toNat]
  omega

/-! ### The decoder and the rows of the opcode map (R45) -/

/-- The mask 0xF000 fixes the top nibble. -/
theorem cField_of_selects_top (h : w &&& 0xF000#16 = p) : (cField w).toNat = p.toNat / 4096 := by
  rw [cField_toNat_eq_div, ← (selects_top_iff w p).mp h]
  omega

/-- The mask 0xF00F fixes the top nibble and the minor opcode. -/
theorem fields_of_selects_top_low (h : w &&& 0xF00F#16 = p) :
    (cField w).toNat = p.toNat / 4096 ∧ (nField w).toNat = p.toNat % 16 := by
  rw [cField_toNat_eq_div, nField_toNat, ← (selects_top_low_iff w p).mp h]
  omega

/-- An opcode that selects a row decodes to that row's instruction on its fields. -/
theorem decode_of_selects : ∀ r ∈ opcodeTable, r.Selects w → decode w = .instr (r.operands w) := by
  simp only [opcodeTable, List.forall_mem_cons]
  refine ⟨?halt, ?cls, ?ret, ?jp, ?call, ?seImm, ?sneImm, ?seReg, ?ldImm, ?addImm, ?ldReg, ?orReg, ?andReg, ?xorReg,
    ?addReg, fun _ h => nomatch h⟩ <;> intro selects
  case halt | cls | ret =>
    obtain rfl := (and_full w).symm.trans selects
    rfl
  case jp | call | seImm | sneImm | ldImm | addImm =>
    rw [decode, cField_of_selects_top selects]
    rfl
  case seReg =>
    obtain ⟨top, minor⟩ := fields_of_selects_top_low selects
    have minorZero : nField w = 0 := BitVec.eq_of_toNat_eq minor
    rw [decode, top]
    exact if_pos minorZero
  case ldReg | orReg | andReg | xorReg | addReg =>
    obtain ⟨top, minor⟩ := fields_of_selects_top_low selects
    rw [decode, top]
    change decodeAlu w = _
    rw [decodeAlu, minor]
    rfl

/-- The opcode of every instruction selects a row, which gives the instruction back. -/
theorem exists_row_of_encode (i : Instr) : ∃ r ∈ opcodeTable, r.Selects (encode i) ∧ r.operands (encode i) = i :=
  match i with
  | .halt => Laws.RowFits.halt
  | .cls => Laws.RowFits.cls
  | .ret => Laws.RowFits.ret
  | .jp addr => Laws.RowFits.jp addr
  | .call addr => Laws.RowFits.call addr
  | .seImm x kk => Laws.RowFits.seImm x kk
  | .sneImm x kk => Laws.RowFits.sneImm x kk
  | .seReg x y => Laws.RowFits.seReg x y
  | .ldImm x kk => Laws.RowFits.ldImm x kk
  | .addImm x kk => Laws.RowFits.addImm x kk
  | .ldReg x y => Laws.RowFits.ldReg x y
  | .orReg x y => Laws.RowFits.orReg x y
  | .andReg x y => Laws.RowFits.andReg x y
  | .xorReg x y => Laws.RowFits.xorReg x y
  | .addReg x y => Laws.RowFits.addReg x y

theorem decode_encode (i : Instr) : decode (encode i) = .instr i := by
  obtain ⟨r, row, selects, operands⟩ := exists_row_of_encode i
  rw [decode_of_selects r row selects, operands]

theorem exists_row_of_decode {i : Instr} (h : decode w = .instr i) : ∃ r ∈ opcodeTable, r.Selects w := by
  obtain ⟨r, row, selects, -⟩ := exists_row_of_encode i
  exact ⟨r, row, encode_of_decode h ▸ selects⟩

/-- Settles O4: an instruction's opcode selects a row that gives it back, and the decoder answers by that row. -/
theorem decodeOfEncode : Obligations.DecodeOfEncode := by
  unfold Obligations.DecodeOfEncode
  exact fun i => ⟨i.wellFormed_all, decode_encode i⟩

/-- Settles O5, along the branches of the decoder: in each the opcode is built from its own fields again. -/
theorem encodeOfDecode : Obligations.EncodeOfDecode := by
  unfold Obligations.EncodeOfDecode
  exact fun _ _ => encode_of_decode

/-- The rows of the opcode map stand in the order of the constructors of `Instr`. -/
theorem ctorIdx_operands (w : Opcode) (j : Fin opcodeTable.length) : (opcodeTable[j].operands w).ctorIdx = j.val := by
  have rows : ∀ j : Fin 15, (opcodeTable[j].operands w).ctorIdx = j.val := by
    intro j
    fin_cases j <;> rfl
  exact rows j

/-- Settles O6: the decoder answers once, and the constructor it answers with names the row. -/
theorem noOpcodeMatchesTwoRows : Obligations.NoOpcodeMatchesTwoRows := by
  unfold Obligations.NoOpcodeMatchesTwoRows
  intro w j k selectsJ selectsK
  have sameInstr : opcodeTable[j].operands w = opcodeTable[k].operands w :=
    Decoded.instr.inj ((decode_of_selects _ (List.getElem_mem _) selectsJ).symm.trans
      (decode_of_selects _ (List.getElem_mem _) selectsK))
  apply Fin.ext
  rw [← ctorIdx_operands w j, sameInstr, ctorIdx_operands]

/-! ### The opcodes the decoder rejects (R47) -/

/-- The row of R47's table, as a range of numbers. -/
def IllegalOpcode.Range : IllegalOpcode → Nat → Prop
  | .systemValue, v => 0x0001 ≤ v ∧ v ≤ 0x0FFF ∧ v ≠ 0x00E0 ∧ v ≠ 0x00EE
  | .skipMinor, v => 0x5000 ≤ v ∧ v ≤ 0x5FFF ∧ v % 16 ≠ 0
  | .aluMinor, v => 0x8000 ≤ v ∧ v ≤ 0x8FFF ∧ 5 ≤ v % 16
  | .topNibble, v => 0x9000 ≤ v

theorem decodeSystem_eq_illegal_iff {why : IllegalOpcode} : decodeSystem w = .illegal why ↔
    why = .systemValue ∧ w.toNat ≠ 0x0000 ∧ w.toNat ≠ 0x00E0 ∧ w.toNat ≠ 0x00EE := by
  simp only [decodeSystem, ← BitVec.toNat_inj]
  split_ifs with halt cls ret
  · simp [halt]
  · simp [cls]
  · simp [ret]
  · exact ⟨fun h => ⟨(Decoded.illegal.inj h).symm, halt, cls, ret⟩, fun h => congrArg _ h.1.symm⟩

theorem decodeSkipReg_eq_illegal_iff {why : IllegalOpcode} : decodeSkipReg w = .illegal why ↔
    why = .skipMinor ∧ w.toNat % 16 ≠ 0 := by
  simp only [decodeSkipReg, ← BitVec.toNat_inj, nField_toNat]
  split_ifs with minor
  · simpa using fun _ => minor
  · simpa [eq_comm] using fun _ => minor

theorem decodeAlu_eq_illegal_iff {why : IllegalOpcode} : decodeAlu w = .illegal why ↔
    why = .aluMinor ∧ 5 ≤ w.toNat % 16 := by
  unfold decodeAlu
  rw [nField_toNat]
  split
  case h_6 =>
    simp only [imp_false] at *
    have minor : 5 ≤ w.toNat % 16 := by omega
    simp [minor, eq_comm]
  all_goals simp [*]

/-- The decoder rejects an opcode for a reason exactly in that reason's range: along its branches, the top nibble says
which block of 4096 the opcode lies in, and what the family's own decoder rejects is said above. -/
theorem decode_eq_illegal_iff (why : IllegalOpcode) : decode w = .illegal why ↔ why.Range w.toNat := by
  unfold decode
  rw [cField_toNat_eq_div]
  split <;> simp only [decodeSystem_eq_illegal_iff, decodeSkipReg_eq_illegal_iff, decodeAlu_eq_illegal_iff,
    reduceCtorEq, Decoded.illegal.injEq, imp_false] at *
  all_goals cases why <;> simp [IllegalOpcode.Range] <;> omega

/-- Settles O7: the range of a reason, for each of the four. -/
theorem illegalOpcodesAreExactlyTheFourRanges : Obligations.IllegalOpcodesAreExactlyTheFourRanges := by
  unfold Obligations.IllegalOpcodesAreExactlyTheFourRanges
  exact fun _ => ⟨decode_eq_illegal_iff .systemValue, decode_eq_illegal_iff .skipMinor,
    decode_eq_illegal_iff .aluMinor, decode_eq_illegal_iff .topNibble⟩

/-! ### Words, fields and sums -/

/-- Settles O1: twelve fixed words, which the decoder evaluates. -/
theorem specWordsDecode : Obligations.SpecWordsDecode := by
  unfold Obligations.SpecWordsDecode
  decide

/-- Settles O2, field by field; no bit of an opcode lies above `c`. -/
theorem fieldsOfAnOpcode : Obligations.FieldsOfAnOpcode := by
  unfold Obligations.FieldsOfAnOpcode
  exact fun w =>
    ⟨cField_toNat_eq_div w, xField_val w, yField_val w, kkField_toNat w, nField_toNat w, addrField_toNat w⟩

theorem wordXY_toNat_minor_first (c n : BitVec 4) (x y : RegIdx) :
    (wordXY c x y n).toNat = c.toNat * 4096 + n.toNat + x.val * 256 + y.val * 16 := by
  rw [wordXY_toNat]
  omega

/-- Settles O3, format by format: an opcode is the sum of its format's fields. -/
theorem encodingsAreTheSpecSums : Obligations.EncodingsAreTheSpecSums := by
  unfold Obligations.EncodingsAreTheSpecSums
  intro i
  cases i with
  | halt | cls | ret => rfl
  | jp addr | call addr => exact wordA_toNat _ addr
  | seImm x kk | sneImm x kk | ldImm x kk | addImm x kk => exact wordXK_toNat _ x kk
  | seReg x y | ldReg x y | orReg x y | andReg x y | xorReg x y | addReg x y =>
    exact wordXY_toNat_minor_first _ _ x y

end Sys2Proof
end

section
/-! PROOFS. The instruction cycle: advance, then the handler of the row selected, or UnknownOpcode (R40 to R44). -/

namespace Sys2Proof.Machine

/-- Settles O8: the decoder answers by the row selected, and an opcode that decodes selects one. -/
theorem stepRunsTheHandlerOfTheMatchingRow : Obligations.StepRunsTheHandlerOfTheMatchingRow := by
  unfold Obligations.StepRunsTheHandlerOfTheMatchingRow
  intro s w running fetch
  refine ⟨fun r row selects => step_of_instr running fetch (decode_of_selects r row selects), fun noRow => ?_⟩
  cases decoded : decode w with
  | instr i =>
    obtain ⟨r, row, selects⟩ := exists_row_of_decode decoded
    exact absurd selects (noRow r row)
  | illegal why => exact ⟨_, step_of_illegal running fetch decoded, rfl, rfl⟩

/-- Settles O9: the case of a step in which the opcode fetched is an instruction. -/
theorem stepRunsTheDecodedInstruction : Obligations.StepRunsTheDecodedInstruction := by
  unfold Obligations.StepRunsTheDecodedInstruction
  exact fun _ _ _ => step_of_instr

/-- Settles O10: a fetch succeeds only where the advance stays in range, and both branches of the dispatch follow it. -/
theorem advanceBeforeDispatchNeverWraps : Obligations.AdvanceBeforeDispatchNeverWraps := by
  unfold Obligations.AdvanceBeforeDispatchNeverWraps
  intro s w running fetch
  refine ⟨State.advance_toNat fetch, Nat.add_le_add_right (State.fetchAt_le fetch) 2, ?_⟩
  cases decoded : decode w with
  | instr i => exact step_of_instr running fetch decoded
  | illegal why => exact ⟨_, step_of_illegal running fetch decoded, rfl⟩

end Sys2Proof.Machine
end

section
/-! PROOFS. The system instructions: HALT writes the status alone, CLS nothing (R51, R52). -/

namespace Sys2Proof.Machine

theorem exec_halt (s : State) : exec .halt s = .next s.halt := rfl

theorem exec_cls (s : State) : exec .cls s = .next s := rfl

theorem State.halt_frame (s : State) :
    SameRegs s s.halt ∧ SameStack s s.halt ∧ SameMemory s s.halt ∧ SameFaultRecord s s.halt :=
  ⟨s.halt_reg, ⟨s.halt_sp, s.halt_entry⟩, s.halt_memRead, s.halt_faultCause, s.halt_faultPc, s.halt_faultOpcode⟩

/-- Settles O13: the next state is `s.halt`, which differs from `s` in the status alone; the advanced `pc` stands
(D7). -/
theorem haltEndsTheRunAndWritesNothingElse : Obligations.HaltEndsTheRunAndWritesNothingElse := by
  unfold Obligations.HaltEndsTheRunAndWritesNothingElse
  exact ⟨decode_encode .halt, fun s => ⟨s.halt, exec_halt s, s.halt_status, s.halt_pc, s.halt_frame⟩⟩

/-- Settles O14: the handler answers the state it was given. -/
theorem clsChangesNothing : Obligations.ClsChangesNothing := by
  unfold Obligations.ClsChangesNothing
  exact ⟨decode_encode .cls, exec_cls⟩

end Sys2Proof.Machine
end

section
/-! PROOFS. Control transfer: JP sets `pc`, CALL pushes, RET pops, and nested calls return in last-in first-out order
(R54 to R57). -/

namespace Sys2Proof.Machine

variable {s t u : State}

/-! ### Opcodes, targets and arms -/

/-- Format A as the sum the spec writes (R49). -/
theorem wordA_eq_ofNat (c : BitVec 4) (addr : Addr) : wordA c addr = BitVec.ofNat 16 (c.toNat * 4096 + addr.toNat) := by
  rw [← wordA_toNat, BitVec.ofNat_toNat, BitVec.setWidth_eq]

theorem encode_jp (addr : Addr) : encode (.jp addr) = BitVec.ofNat 16 (0x1000 + addr.toNat) := wordA_eq_ofNat 1 addr

theorem encode_call (addr : Addr) : encode (.call addr) = BitVec.ofNat 16 (0x2000 + addr.toNat) := wordA_eq_ofNat 2 addr

/-- An address is zero-extended into `pc` (R38). -/
theorem targetOf_toNat (addr : Addr) : (targetOf addr).toNat = addr.toNat := BitVec.toNat_setWidth_of_le (by decide)

theorem exec_ret (s : State) : exec .ret s = execRet s := rfl

theorem exec_jp (addr : Addr) (s : State) : exec (.jp addr) s = .next (s.jumpTo (targetOf addr)) := rfl

theorem exec_call (addr : Addr) (s : State) : exec (.call addr) s = execCall addr s := rfl

/-! ### Single instructions -/

/-- Settles O15, on either side of the check of RET. -/
theorem retPopsOrUnderflows : Obligations.RetPopsOrUnderflows := by
  unfold Obligations.RetPopsOrUnderflows
  refine ⟨decode_encode .ret, fun s => ⟨fun j top => ?outstanding, fun empty => ?empty⟩⟩
  case outstanding =>
    obtain ⟨t, ret, pc, sp, stack, regs, mem, run⟩ := execRet_of_outstanding top
    exact ⟨t, ret, pc, sp, stack, regs, .of_mem_eq mem, run⟩
  case empty => exact ⟨_, execRet_of_empty empty, FaultEntered_raise s _ _ _, rfl⟩

/-- Settles O16: the next state is a jump to the zero-extended address. -/
theorem jpLoadsItsAddress : Obligations.JpLoadsItsAddress := by
  unfold Obligations.JpLoadsItsAddress
  exact fun addr => ⟨encode_jp addr ▸ decode_encode (.jp addr),
    fun s => ⟨_, exec_jp addr s, targetOf_toNat addr, OnlyPcChanges_jumpTo s _⟩⟩

/-- Settles O17, on either side of the check of CALL. -/
theorem callPushesOrOverflows : Obligations.CallPushesOrOverflows := by
  unfold Obligations.CallPushesOrOverflows
  intro addr
  rw [← encode_call addr]
  refine ⟨decode_encode (.call addr), fun s => ⟨fun j top => ?free, fun full => ?full⟩⟩
  case free =>
    obtain ⟨t, call, pc, sp, stack, regs, mem, run⟩ := execCall_of_free (s := s) addr (by omega)
    refine ⟨t, call, ?_, sp.trans (by rw [top]), pc ▸ targetOf_toNat addr, fun k other => ?_, regs,
      .of_mem_eq mem, run⟩
    · rw [stack, if_pos top.symm]
    · rw [stack, if_neg fun same => other (Fin.ext (same.trans top))]
  case full => exact ⟨_, execCall_of_full addr full, rfl, FaultEntered_raise s _ _ _⟩

/-! ### Nested calls (R57) -/

theorem runCalls_of_call {p : Word} {addr : Addr} (call : execCall addr { s with pc := p } = .next t)
    (rest : List (Word × Addr)) : runCalls ((p, addr) :: rest) s = runCalls rest t := by
  rw [runCalls, exec_call, call]

theorem runReturns_of_ret (ret : execRet s = .next t) (n : Nat) :
    runReturns (n + 1) s = (t.pc :: (runReturns n t).1, (runReturns n t).2) := by
  rw [runReturns, exec_ret, ret]

/-- One return more, seen from the end of the run. -/
theorem runReturns_succ_last {n : Nat} {pcs : List Word} (returns : runReturns n s = (pcs, t))
    (ret : execRet t = .next u) : runReturns (n + 1) s = (pcs ++ [u.pc], u) := by
  induction n generalizing s pcs with
  | zero =>
    cases returns
    exact runReturns_of_ret ret 0
  | succ n ih =>
    obtain ⟨first, hfirst, -⟩ := exec_effect .ret s
    rw [runReturns_of_ret hfirst] at returns
    cases returns
    rw [runReturns_of_ret hfirst, ih rfl, List.cons_append]

/-- The outstanding entries, and the run status, are those the caller had. -/
def CallerKept (s t : State) : Prop :=
  t.sp = s.sp ∧ (∀ k : Fin 16, k.val < s.sp.val → t.entry k = s.entry k) ∧ t.status = s.status

/-- Calls that fit, then as many returns, load the pushed addresses in reverse order and keep what the caller had. By
induction on the calls: the first call and the last return enclose the others, which keep the entry it pushed. -/
theorem runReturns_of_runCalls (calls : List (Word × Addr)) (s : State) (fits : s.sp.val + calls.length ≤ 16) :
    ∃ t u, runCalls calls s = .next t ∧ t.sp.val = s.sp.val + calls.length ∧
      runReturns calls.length t = ((calls.map Prod.fst).reverse, u) ∧ CallerKept s u := by
  induction calls generalizing s with
  | nil => exact ⟨s, s, rfl, rfl, rfl, rfl, fun _ _ => rfl, rfl⟩
  | cons head rest ih =>
    obtain ⟨p, addr⟩ := head
    rw [List.length_cons] at fits
    have slot : s.sp.val < 16 := by omega
    obtain ⟨called, call, -, calledSp, calledStack, -, -, calledRun⟩ :=
      execCall_of_free (s := { s with pc := p }) addr slot
    simp only [State.withPc_entry] at calledSp calledStack
    obtain ⟨t, u, inner, depth, returns, innerSp, innerStack, innerStatus⟩ := ih called (by omega)
    obtain ⟨v, ret, pc, sp, stack, -, -, run⟩ :=
      execRet_of_outstanding (s := u) (j := ⟨s.sp.val, slot⟩) (by rw [innerSp, calledSp])
    have popped : v.pc = p := by rw [pc, innerStack _ (by simp [calledSp]), calledStack, if_pos rfl]
    refine ⟨t, v, (runCalls_of_call call rest).trans inner, ?_, ?_, Fin.ext sp, fun k below => ?_, ?_⟩
    · rw [depth, calledSp, List.length_cons]
      omega
    · rw [List.length_cons, runReturns_succ_last returns ret, popped, List.map_cons, List.reverse_cons]
    · rw [stack, innerStack k (by omega), calledStack, if_neg below.ne]
    · rw [run.1, innerStatus, calledRun.1]

/-- Settles O18: the nesting by induction on the calls, and the two faults of a full and an empty stack. -/
theorem callsAndReturnsNest : Obligations.CallsAndReturnsNest := by
  unfold Obligations.CallsAndReturnsNest
  refine ⟨fun calls s fits => ?nest, fun addr s full => ⟨_, execCall_of_full addr full, rfl, rfl⟩,
    fun s empty => ⟨_, execRet_of_empty empty, rfl, rfl⟩⟩
  obtain ⟨t, u, run, depth, returns, sp, -, status⟩ := runReturns_of_runCalls calls s fits
  refine ⟨t, run, depth, ?_⟩
  rw [returns]
  exact ⟨rfl, sp, status⟩

/-! ### A jump to itself (R94) -/

theorem core_run_of_fixed (fixed : step s = .next s) (k : Nat) : Sys2Proof.core.run k s = .next s := by
  induction k with
  | zero => rfl
  | succ k ih => exact (core_run_of_next fixed).trans ih

theorem State.advance_jumpTo_pc (s : State) : s.advance.jumpTo s.pc = s := rfl

/-- Settles O43: the jump undoes the advance, so the step answers its own state, and so does a run. -/
theorem jumpToItselfNeverEnds : Obligations.JumpToItselfNeverEnds := by
  unfold Obligations.JumpToItselfNeverEnds
  intro s w addr running fetch instr own
  have target : targetOf addr = s.pc := BitVec.eq_of_toNat_eq ((targetOf_toNat addr).trans own.symm)
  have fixed : step s = .next s := by
    rw [step_of_instr running fetch instr, exec_jp, target, s.advance_jumpTo_pc]
  exact core_run_of_fixed fixed

end Sys2Proof.Machine
end

section
/-! PROOFS. The conditional skips SE and SNE: each handler is a `skipIf` on the register values it compares (R58 to
R61). -/

namespace Sys2Proof.Machine

variable {s : State}

/-! ### Opcodes and arms -/

/-- Format XK as the sum the spec writes (R49). -/
theorem wordXK_eq_ofNat (c : BitVec 4) (x : RegIdx) (kk : Byte) :
    wordXK c x kk = BitVec.ofNat 16 (c.toNat * 4096 + x.val * 256 + kk.toNat) := by
  rw [← wordXK_toNat, BitVec.ofNat_toNat, BitVec.setWidth_eq]

/-- Format XY as the sum the spec writes (R49). -/
theorem wordXY_eq_ofNat (c n : BitVec 4) (x y : RegIdx) :
    wordXY c x y n = BitVec.ofNat 16 (c.toNat * 4096 + n.toNat + x.val * 256 + y.val * 16) := by
  rw [← wordXY_toNat_minor_first, BitVec.ofNat_toNat, BitVec.setWidth_eq]

theorem encode_seImm (x : RegIdx) (kk : Byte) :
    encode (.seImm x kk) = BitVec.ofNat 16 (0x3000 + x.val * 256 + kk.toNat) := wordXK_eq_ofNat 3 x kk

theorem encode_sneImm (x : RegIdx) (kk : Byte) :
    encode (.sneImm x kk) = BitVec.ofNat 16 (0x4000 + x.val * 256 + kk.toNat) := wordXK_eq_ofNat 4 x kk

theorem encode_seReg (x y : RegIdx) :
    encode (.seReg x y) = BitVec.ofNat 16 (0x5000 + x.val * 256 + y.val * 16) := wordXY_eq_ofNat 5 0 x y

theorem exec_seImm (x : RegIdx) (kk : Byte) (s : State) :
    exec (.seImm x kk) s = .next (s.skipIf (s.reg x = kk)) := rfl

theorem exec_sneImm (x : RegIdx) (kk : Byte) (s : State) :
    exec (.sneImm x kk) s = .next (s.skipIf (s.reg x ≠ kk)) := rfl

theorem exec_seReg (x y : RegIdx) (s : State) :
    exec (.seReg x y) s = .next (s.skipIf (s.reg x = s.reg y)) := rfl

/-! ### The shared skip (R58) -/

section skipIf
variable (c : Prop) [Decidable c]

theorem State.skipIf_pc : (s.skipIf c).pc = if c then s.pc + 2 else s.pc := by
  rw [State.skipIf_eq, State.jumpTo_pc]

theorem State.skipIf_pc_of_true (h : c) : (s.skipIf c).pc = s.pc + 2 := by
  rw [State.skipIf_pc, if_pos h]

theorem State.skipIf_pc_of_false (h : ¬c) : (s.skipIf c).pc = s.pc := by
  rw [State.skipIf_pc, if_neg h]

theorem OnlyPcChanges_skipIf : OnlyPcChanges s (s.skipIf c) := by
  rw [State.skipIf_eq]
  exact OnlyPcChanges_jumpTo s _

/-- The advance and then a skip or none is one jump. -/
theorem OnlyPcChanges_advance_skipIf : OnlyPcChanges s (s.advance.skipIf c) := by
  rw [State.skipIf_eq]
  exact OnlyPcChanges_jumpTo s _

end skipIf

theorem State.skipIf_congr {c d : Prop} [Decidable c] [Decidable d] (h : c ↔ d) : s.skipIf c = s.skipIf d := by
  rw [State.skipIf_eq, State.skipIf_eq, if_congr h rfl rfl]

/-! ### Single instructions -/

/-- Settles O20: the handler skips on equality. -/
theorem seImmediateSkipsOnEqual : Obligations.SeImmediateSkipsOnEqual := by
  unfold Obligations.SeImmediateSkipsOnEqual
  exact fun x kk => ⟨encode_seImm x kk ▸ decode_encode (.seImm x kk), fun s => ⟨_, exec_seImm x kk s,
    State.skipIf_pc_of_true _, State.skipIf_pc_of_false _, OnlyPcChanges_skipIf _⟩⟩

/-- Settles O21: the handler skips on inequality, so it does not skip where the values are equal. -/
theorem sneImmediateSkipsOnUnequal : Obligations.SneImmediateSkipsOnUnequal := by
  unfold Obligations.SneImmediateSkipsOnUnequal
  exact fun x kk => ⟨encode_sneImm x kk ▸ decode_encode (.sneImm x kk), fun s => ⟨_, exec_sneImm x kk s,
    State.skipIf_pc_of_true _, fun equal => State.skipIf_pc_of_false _ (not_not_intro equal),
    OnlyPcChanges_skipIf _⟩⟩

/-- Settles O22: whether the values are equal decides which of the two skips. -/
theorem exactlyOneOfSeAndSneSkips : Obligations.ExactlyOneOfSeAndSneSkips := by
  unfold Obligations.ExactlyOneOfSeAndSneSkips
  intro x kk s
  refine ⟨_, _, exec_seImm x kk s, exec_sneImm x kk s, ?_⟩
  by_cases equal : s.reg x = kk
  · exact .inl ⟨State.skipIf_pc_of_true _ equal, State.skipIf_pc_of_false _ (not_not_intro equal)⟩
  · exact .inr ⟨State.skipIf_pc_of_false _ equal, State.skipIf_pc_of_true _ equal⟩

/-- Top nibble 5 with a minor opcode other than 0 lies in the range of R47 for it. -/
theorem decode_skip_minor (x y : RegIdx) {n : Nat} (pos : 1 ≤ n) (nibble : n ≤ 15) :
    decode (BitVec.ofNat 16 (0x5000 + x.val * 256 + y.val * 16 + n)) = .illegal .skipMinor := by
  have value : (BitVec.ofNat 16 (0x5000 + x.val * 256 + y.val * 16 + n)).toNat =
      0x5000 + x.val * 256 + y.val * 16 + n := by
    rw [BitVec.toNat_ofNat]
    omega
  rw [decode_eq_illegal_iff, value, IllegalOpcode.Range]
  omega

/-- Settles O23: the handler compares what the two registers hold; any other minor opcode is no instruction. -/
theorem seRegisterSkipsOnEqualValues : Obligations.SeRegisterSkipsOnEqualValues := by
  unfold Obligations.SeRegisterSkipsOnEqualValues
  exact fun x y => ⟨encode_seReg x y ▸ decode_encode (.seReg x y), fun _ => decode_skip_minor x y, fun s =>
    ⟨_, exec_seReg x y s, State.skipIf_pc_of_true _, State.skipIf_pc_of_false _, OnlyPcChanges_skipIf _⟩⟩

/-! ### A step at a skip (R58) -/

/-- A skip on top of the advance does not wrap either: an opcode is fetched at 4094 or below. -/
theorem State.advance_skip_toNat {w : Opcode} (fetch : s.fetchAt s.pc = some w) : (s.pc + 2 + 2).toNat = s.pc.toNat + 4 := by
  have advanced := State.advance_toNat fetch
  have inMemory := State.fetchAt_le fetch
  rw [BitVec.toNat_add, advanced]
  exact Nat.mod_eq_of_lt (by simp; omega)

/-- A step at an instruction whose handler is a `skipIf`. The address it leads to reads no memory. -/
theorem step_of_skip {w : Opcode} {i : Instr} {c : Prop} [Decidable c] (running : s.status = .running)
    (fetch : s.fetchAt s.pc = some w) (instr : decode w = .instr i)
    (handler : exec i s.advance = .next (s.advance.skipIf c)) :
    ∃ t, step s = .next t ∧ t.pc = (if c then s.pc + 2 + 2 else s.pc + 2) ∧ OnlyPcChanges s t :=
  ⟨_, (step_of_instr running fetch instr).trans handler, State.skipIf_pc c, OnlyPcChanges_advance_skipIf c⟩

/-- Settles O19: each of the three handlers is a `skipIf` on a condition that only registers decide, so the step leads
to the same address whatever memory holds, and that address is the advanced one or 2 above it. -/
theorem skipsAdvanceByFourOrTwo : Obligations.SkipsAdvanceByFourOrTwo := by
  unfold Obligations.SkipsAdvanceByFourOrTwo
  intro s w running fetch c kind
  classical
  obtain ⟨i, instr, handler⟩ :
      ∃ i, decode w = .instr i ∧ ∀ t, SameRegs s t → exec i t = .next (t.skipIf c) := by
    rcases kind with ⟨x, kk, instr, cond⟩ | ⟨x, kk, instr, cond⟩ | ⟨x, y, instr, cond⟩
    · exact ⟨_, instr, fun t regs => by rw [exec_seImm, State.skipIf_congr cond, regs x]⟩
    · exact ⟨_, instr, fun t regs => by rw [exec_sneImm, State.skipIf_congr cond, regs x]⟩
    · exact ⟨_, instr, fun t regs => by rw [exec_seReg, State.skipIf_congr cond, regs x, regs y]⟩
  obtain ⟨t, stepped, pc, frame⟩ := step_of_skip running fetch instr (handler s.advance fun _ => rfl)
  refine ⟨t, stepped, fun skips => ?_, fun stays => ?_, frame, fun m refetch => ?_⟩
  · rw [pc, if_pos skips, State.advance_skip_toNat fetch]
  · rw [pc, if_neg stays, State.advance_toNat fetch]
  · obtain ⟨u, steppedU, pcU, frameU⟩ :=
      step_of_skip (s := { s with mem := m }) running refetch instr (handler _ fun _ => rfl)
    exact ⟨u, steppedU, pcU.trans pc.symm, frameU⟩

end Sys2Proof.Machine
end

section
/-! PROOFS. The register-immediate instructions LD and ADD: each handler is one register write (R62, R63). -/

namespace Sys2Proof.Machine

/-! ### Opcodes and arms -/

theorem encode_ldImm (x : RegIdx) (kk : Byte) :
    encode (.ldImm x kk) = BitVec.ofNat 16 (0x6000 + x.val * 256 + kk.toNat) := wordXK_eq_ofNat 6 x kk

theorem encode_addImm (x : RegIdx) (kk : Byte) :
    encode (.addImm x kk) = BitVec.ofNat 16 (0x7000 + x.val * 256 + kk.toNat) := wordXK_eq_ofNat 7 x kk

theorem exec_ldImm (x : RegIdx) (kk : Byte) (s : State) : exec (.ldImm x kk) s = .next (s.setReg x kk) := rfl

theorem exec_addImm (x : RegIdx) (kk : Byte) (s : State) :
    exec (.addImm x kk) s = .next (s.setReg x (wrappedSum (s.reg x) kk)) := rfl

/-! ### The wrapped sum and the register it goes to -/

/-- Addition of bytes wraps modulo 256 (R70). -/
theorem wrappedSum_toNat (a b : Byte) : (wrappedSum a b).toNat = (a.toNat + b.toNat) % 256 := BitVec.toNat_ofNat _ 8

/-- Of two writes to one register, the second stands. -/
theorem State.setReg_setReg (s : State) (i : RegIdx) (v w : Byte) : (s.setReg i v).setReg i w = s.setReg i w := by
  simp only [State.setReg, Vector.set_set]

theorem exec_addImm_after_load (x : RegIdx) (a kk : Byte) (s : State) :
    exec (.addImm x kk) (s.setReg x a) = .next (s.setReg x (wrappedSum a kk)) := by
  rw [exec_addImm, State.setReg_reg_same, State.setReg_setReg]

/-- A write of the wrapped sum stores no carry: VF is framed like any other register (R63, D11). -/
theorem State.setReg_wrappedSum (s : State) (x : RegIdx) (a b : Byte) :
    ((s.setReg x (wrappedSum a b)).reg x).toNat = (a.toNat + b.toNat) % 256 ∧
      OnlyRegsChange [x] s (s.setReg x (wrappedSum a b)) :=
  ⟨by rw [State.setReg_reg_same, wrappedSum_toNat], OnlyRegsChange_setReg s x _⟩

/-! ### Single instructions -/

/-- Settles O24: the handler writes the immediate to its register. -/
theorem loadImmediateWritesItsRegister : Obligations.LoadImmediateWritesItsRegister := by
  unfold Obligations.LoadImmediateWritesItsRegister
  exact fun x kk => ⟨encode_ldImm x kk ▸ decode_encode (.ldImm x kk), fun s =>
    ⟨_, exec_ldImm x kk s, State.setReg_reg_same s x kk, OnlyRegsChange_setReg s x kk⟩⟩

/-- Settles O25: the handler writes the wrapped sum to its register; after a load of that register, the two writes are
one write of the sum with the value loaded. -/
theorem addImmediateWrapsWithoutCarry : Obligations.AddImmediateWrapsWithoutCarry := by
  unfold Obligations.AddImmediateWrapsWithoutCarry
  exact fun x kk => ⟨encode_addImm x kk ▸ decode_encode (.addImm x kk),
    fun s => ⟨_, exec_addImm x kk s, State.setReg_wrappedSum s x (s.reg x) kk⟩,
    fun a s => ⟨_, _, exec_ldImm x a s, exec_addImm_after_load x a kk s, State.setReg_wrappedSum s x a kk⟩⟩

end Sys2Proof.Machine
end

section
/-! PROOFS. The register-register instructions LD, OR, AND, XOR and ADD: each of the first four handlers is one
`combine` of the operands, and ADD writes the carry to VF after it (R64 to R69). -/

namespace Sys2Proof.Machine

/-! ### Opcodes and arms -/

section opcodes
variable (x y : RegIdx)

theorem encode_ldReg : encode (.ldReg x y) = BitVec.ofNat 16 (0x8000 + x.val * 256 + y.val * 16) :=
  wordXY_eq_ofNat 8 0 x y

theorem encode_orReg : encode (.orReg x y) = BitVec.ofNat 16 (0x8001 + x.val * 256 + y.val * 16) :=
  wordXY_eq_ofNat 8 1 x y

theorem encode_andReg : encode (.andReg x y) = BitVec.ofNat 16 (0x8002 + x.val * 256 + y.val * 16) :=
  wordXY_eq_ofNat 8 2 x y

theorem encode_xorReg : encode (.xorReg x y) = BitVec.ofNat 16 (0x8003 + x.val * 256 + y.val * 16) :=
  wordXY_eq_ofNat 8 3 x y

theorem encode_addReg : encode (.addReg x y) = BitVec.ofNat 16 (0x8004 + x.val * 256 + y.val * 16) :=
  wordXY_eq_ofNat 8 4 x y

variable (s : State)

theorem exec_ldReg : exec (.ldReg x y) s = .next (s.combine x y fun _ b => b) := rfl

theorem exec_orReg : exec (.orReg x y) s = .next (s.combine x y fun a b => a ||| b) := rfl

theorem exec_andReg : exec (.andReg x y) s = .next (s.combine x y fun a b => a &&& b) := rfl

theorem exec_xorReg : exec (.xorReg x y) s = .next (s.combine x y fun a b => a ^^^ b) := rfl

theorem exec_addReg :
    exec (.addReg x y) s = .next ((s.combine x y wrappedSum).setCarry (s.reg x) (s.reg y)) := rfl

end opcodes

/-! ### The shared write of the destination (R64) -/

section combine
variable (s : State) (x y : RegIdx) (f : Byte → Byte → Byte)

@[simp] theorem State.combine_reg_same : (s.combine x y f).reg x = f (s.reg x) (s.reg y) :=
  State.setReg_reg_same s x _

/-- VF is framed like any other register (D11). -/
theorem OnlyRegsChange_combine : OnlyRegsChange [x] s (s.combine x y f) := OnlyRegsChange_setReg s x _

end combine

/-! ### The flag write of the register add (R69) -/

/-- One more register write adds its register to those that change. -/
theorem OnlyRegsChange.then_setReg {ds : List RegIdx} {s t : State} (h : OnlyRegsChange ds s t) (i : RegIdx)
    (v : Byte) : OnlyRegsChange (ds ++ [i]) s (t.setReg i v) := by
  obtain ⟨regs, pc, stack, mem, run⟩ := h
  refine ⟨fun r other => ?_, pc, stack, mem, run⟩
  obtain ⟨notDs, notI⟩ : r ∉ ds ∧ r ≠ i := by simpa using other
  rw [State.setReg_reg_of_ne t notI, regs r notDs]

theorem carryOut_toNat (a b : Byte) : (carryOut a b).toNat = if a.toNat + b.toNat > 255 then 1 else 0 :=
  apply_ite BitVec.toNat _ _ _

section setCarry
variable (s : State) (a b : Byte)

@[simp] theorem State.setCarry_reg_vf : (s.setCarry a b).reg Config.vf = carryOut a b :=
  State.setReg_reg_same s Config.vf _

theorem State.setCarry_reg_of_ne {r : RegIdx} (h : r ≠ Config.vf) : (s.setCarry a b).reg r = s.reg r :=
  State.setReg_reg_of_ne s h _

end setCarry

/-! ### Single instructions -/

/-- Settles O26: the handler combines the operands to the second. -/
theorem copyWritesItsRegister : Obligations.CopyWritesItsRegister := by
  unfold Obligations.CopyWritesItsRegister
  exact fun x y => ⟨encode_ldReg x y ▸ decode_encode (.ldReg x y), fun s =>
    ⟨_, exec_ldReg x y s, State.combine_reg_same s x y _, OnlyRegsChange_combine s x y _⟩⟩

/-- Settles O27: the handler combines the operands by OR, which acts on each bit. -/
theorem orCombinesBitByBit : Obligations.OrCombinesBitByBit := by
  unfold Obligations.OrCombinesBitByBit
  exact fun x y => ⟨encode_orReg x y ▸ decode_encode (.orReg x y), fun s =>
    ⟨_, exec_orReg x y s, OnlyRegsChange_combine s x y _,
      fun _ _ => by rw [State.combine_reg_same, BitVec.getLsbD_or]⟩⟩

/-- Settles O28: the handler combines the operands by AND, which acts on each bit. -/
theorem andCombinesBitByBit : Obligations.AndCombinesBitByBit := by
  unfold Obligations.AndCombinesBitByBit
  exact fun x y => ⟨encode_andReg x y ▸ decode_encode (.andReg x y), fun s =>
    ⟨_, exec_andReg x y s, OnlyRegsChange_combine s x y _,
      fun _ _ => by rw [State.combine_reg_same, BitVec.getLsbD_and]⟩⟩

/-- Settles O29: the handler combines the operands by XOR, which acts on each bit. -/
theorem xorCombinesBitByBit : Obligations.XorCombinesBitByBit := by
  unfold Obligations.XorCombinesBitByBit
  exact fun x y => ⟨encode_xorReg x y ▸ decode_encode (.xorReg x y), fun s =>
    ⟨_, exec_xorReg x y s, OnlyRegsChange_combine s x y _,
      fun _ _ => by rw [State.combine_reg_same, BitVec.getLsbD_xor]⟩⟩

/-- Settles O30: the carry is written last, so VF holds it whatever `x` is, and the wrapped sum written before it stands
where `x` is not VF. -/
theorem addRegisterWrapsAndWritesCarryLast : Obligations.AddRegisterWrapsAndWritesCarryLast := by
  unfold Obligations.AddRegisterWrapsAndWritesCarryLast
  refine fun x y => ⟨encode_addReg x y ▸ decode_encode (.addReg x y), fun s =>
    ⟨_, exec_addReg x y s, ?carry, fun notVf => ?sum,
      (OnlyRegsChange_combine s x y wrappedSum).then_setReg Config.vf _⟩⟩
  case carry => rw [State.setCarry_reg_vf, carryOut_toNat]
  case sum => rw [State.setCarry_reg_of_ne _ _ _ notVf, State.combine_reg_same, wrappedSum_toNat]

end Sys2Proof.Machine
end

section
/-! PROOFS. Faults: each of the four is one fault entry, and a step ends in one exactly under its condition (R71 to
R78). -/

namespace Sys2Proof.Machine

variable {s t : State} {i : Instr}

/-! ### Cause codes (R71) -/

/-- The fault cause that a code stands for; `causeCode` read backwards. -/
def causeOfCode : Nat → Option FaultCause
  | 1 => some .stackOverflow
  | 2 => some .stackUnderflow
  | 3 => some .unknownOpcode
  | 4 => some .fetchOutOfBounds
  | _ => none

theorem causeOfCode_causeCode : Function.LeftInverse causeOfCode causeCode
  | none => rfl
  | some f => by cases f <;> rfl

theorem causeCode_some_bounds (f : FaultCause) : 1 ≤ causeCode (some f) ∧ causeCode (some f) ≤ 4 := by
  cases f <;> decide

/-- Settles O36: a code determines its cause. -/
theorem causeCodesAreDistinct : Obligations.CauseCodesAreDistinct := by
  unfold Obligations.CauseCodesAreDistinct
  exact fun _ _ same => causeOfCode_causeCode.injective same

/-! ### A step at each of the four conditions (R72 to R75) -/

theorem step_of_call_on_full {w : Opcode} {addr : Addr} (running : s.status = .running) (fetch : s.fetch = some w)
    (call : decode w = .instr (.call addr)) (full : s.sp.val = 16) :
    step s = .next (s.advance.raise .stackOverflow s.pc w) := by
  rw [step_of_instr running fetch call, exec_call, execCall_of_full (s := s.advance) addr full, s.advance_ia,
    encode_of_decode call]

theorem step_of_ret_on_empty (running : s.status = .running) (fetch : s.fetch = some 0x00EE#16)
    (empty : s.sp.val = 0) : step s = .next (s.advance.raise .stackUnderflow s.pc 0x00EE#16) := by
  rw [step_of_instr running fetch (decode_encode .ret), exec_ret, execRet_of_empty (s := s.advance) empty, s.advance_ia]

/-- A fault raised after the advance has made, beside the advance, exactly the four writes of R78. -/
theorem FaultEntered_advance_raise (s : State) (f : FaultCause) (p : Word) (o : Opcode) :
    FaultEntered f p o s (s.advance.raise f p o) :=
  FaultEntered_raise s.advance p f o

/-- Settles O37: the check of CALL comes before its push, so the fault has written the advance and the record alone. -/
theorem callOnFullStackFaults : Obligations.CallOnFullStackFaults := by
  unfold Obligations.CallOnFullStackFaults
  intro s w addr running fetch call full
  obtain ⟨status, cause, -, -, -, stack, -⟩ := FaultEntered_advance_raise s .stackOverflow s.pc w
  exact ⟨_, step_of_call_on_full running fetch call full, status, by simp, cause, stack⟩

/-- Settles O38: the check of RET comes before its pop, so the fault has written the advance and the record alone. -/
theorem returnOnEmptyStackFaults : Obligations.ReturnOnEmptyStackFaults := by
  unfold Obligations.ReturnOnEmptyStackFaults
  intro s running fetch empty
  obtain ⟨status, cause, -, -, -, stack, -⟩ := FaultEntered_advance_raise s .stackUnderflow s.pc 0x00EE#16
  exact ⟨_, step_of_ret_on_empty running fetch empty, status, by simp, cause, stack⟩

/-- Settles O39: an opcode that decodes to no instruction is illegal for a reason, and the dispatch reports it. -/
theorem unknownOpcodeFaultsAndIsReported : Obligations.UnknownOpcodeFaultsAndIsReported := by
  unfold Obligations.UnknownOpcodeFaultsAndIsReported
  intro s w running fetch notInstr
  cases decoded : decode w with
  | instr i => exact absurd decoded (notInstr i)
  | illegal why => exact ⟨_, step_of_illegal running fetch decoded, rfl, rfl, rfl⟩

/-- Settles O40: past 4094 no opcode can be fetched, and the fault is entered before the advance. -/
theorem fetchPastTheEndFaults : Obligations.FetchPastTheEndFaults := by
  unfold Obligations.FetchPastTheEndFaults
  exact fun s running pastEnd =>
    ⟨_, step_of_no_fetch running (State.fetchAt_eq_none.mpr pastEnd), FaultEntered_raise s _ _ _, rfl⟩

/-! ### Precision: what a step that faults leaves (R78) -/

/-- A handler ends in `Faulted` only by a fault entry that records its own instruction. -/
theorem ExecEffect.eq_raise_of_faulted (effect : ExecEffect s i t) (running : s.status = .running)
    (faulted : t.status = .faulted) : ∃ f, f ≠ .fetchOutOfBounds ∧ t = s.raise f s.ia (encode i) := by
  cases effect with
  | overflows => exact ⟨.stackOverflow, by simp, rfl⟩
  | underflows => exact ⟨.stackUnderflow, by simp, rfl⟩
  | halts => simp at faulted
  | plain _ _ _ _ _ run | pushes _ _ _ _ _ _ run | pops _ _ _ _ _ _ run => simp [run.1, running] at faulted

/-- A step ends in `Faulted` only by a fault entry: that of the fetch before the advance, any other after it. -/
theorem StepEffect.eq_raise_of_faulted (effect : StepEffect s t) (running : s.status = .running)
    (faulted : t.status = .faulted) :
    (s.fetch = none ∧ t = s.raise .fetchOutOfBounds s.pc 0x0000#16) ∨
      ∃ f o, f ≠ .fetchOutOfBounds ∧ s.fetch = some o ∧ t = s.advance.raise f s.pc o := by
  cases effect with
  | noFetch fetch => exact .inl ⟨fetch, rfl⟩
  | unknown fetch illegal => exact .inr ⟨_, _, by simp, fetch, rfl⟩
  | ran fetch instr effect =>
    obtain ⟨f, notFetch, raised⟩ := effect.eq_raise_of_faulted running faulted
    rw [s.advance_ia, encode_of_decode instr] at raised
    exact .inr ⟨f, _, notFetch, fetch, raised⟩

/-- Settles O41: a step that faults is one fault entry, on the advanced state but for a fetch that failed. -/
theorem everyFaultIsPrecise : Obligations.EveryFaultIsPrecise := by
  unfold Obligations.EveryFaultIsPrecise
  intro s t h faulted
  rcases (effect_of_step h).eq_raise_of_faulted (running_of_step h) faulted with
    ⟨noFetch, rfl⟩ | ⟨f, o, notFetch, fetch, rfl⟩
  · obtain ⟨least, greatest⟩ := causeCode_some_bounds .fetchOutOfBounds
    exact ⟨_, _, FaultEntered_raise s _ _ _, least, greatest, .inl ⟨rfl, rfl, rfl, noFetch⟩⟩
  · obtain ⟨least, greatest⟩ := causeCode_some_bounds f
    exact ⟨f, o, FaultEntered_advance_raise s _ _ _, least, greatest, .inr ⟨notFetch, rfl, fetch⟩⟩

/-! ### When a step faults (R72 to R77) -/

/-- The conditions under which a handler faults: CALL with the stack full, RET with the stack empty. -/
def HandlerFaults (s : State) (i : Instr) : Prop :=
  (∃ addr, i = .call addr ∧ s.sp.val = 16) ∨ (i = .ret ∧ s.sp.val = 0)

/-- The conditions under which a step faults: at the fetch, at the dispatch, or in the handler of CALL or RET. -/
def StepFaults (s : State) : Prop :=
  s.fetch = none ∨ (∃ w why, s.fetch = some w ∧ decode w = .illegal why) ∨
    (∃ w addr, s.fetch = some w ∧ decode w = .instr (.call addr) ∧ s.sp.val = 16) ∨
    (s.fetch = some 0x00EE#16 ∧ s.sp.val = 0)

theorem decode_eq_ret_iff {w : Opcode} : decode w = .instr .ret ↔ w = 0x00EE#16 :=
  ⟨fun h => (encode_of_decode h).symm, fun h => h ▸ rfl⟩

theorem stepFaults_iff {w : Opcode} (fetch : s.fetch = some w) (instr : decode w = .instr i) :
    StepFaults s ↔ HandlerFaults s i := by
  simp [StepFaults, HandlerFaults, fetch, instr, ← decode_eq_ret_iff]

theorem ExecEffect.faulted_iff (effect : ExecEffect s i t) (running : s.status = .running) :
    t.status = .faulted ↔ HandlerFaults s i := by
  cases effect with
  | overflows full => simp [HandlerFaults, full]
  | underflows empty => simp [HandlerFaults, empty]
  | halts => simp [HandlerFaults]
  | plain kind _ _ _ _ run =>
    have notCall : ∀ addr, i ≠ .call addr := fun addr h => by rw [h] at kind; exact kind
    have notRet : i ≠ .ret := fun h => by rw [h] at kind; exact kind
    simp [HandlerFaults, run.1, running, notCall, notRet]
  | pushes free _ _ _ _ _ run => simp [HandlerFaults, run.1, running, free.ne]
  | pops top _ _ _ _ _ run => simp [HandlerFaults, run.1, running, top]

theorem StepEffect.faulted_iff (effect : StepEffect s t) (running : s.status = .running) :
    t.status = .faulted ↔ StepFaults s := by
  cases effect with
  | noFetch fetch => exact iff_of_true rfl (.inl fetch)
  | unknown fetch illegal => exact iff_of_true rfl (.inr (.inl ⟨_, _, fetch, illegal⟩))
  | ran fetch instr effect => exact (effect.faulted_iff running).trans (stepFaults_iff fetch instr).symm

theorem RunStatus.eq_running_iff {r : RunStatus} (notReady : r ≠ .ready) :
    r = .running ↔ r ≠ .faulted ∧ r ≠ .halted := by
  cases r with
  | ready => exact absurd rfl notReady
  | running | halted | faulted => simp

/-- Settles O42: the cases of a step say when it ends in `Faulted` and when in `Halted`, and else it ends in `Running`,
since it never ends in `Ready`. -/
theorem stepsEndTheRunExactlyAtHaltOrFault : Obligations.StepsEndTheRunExactlyAtHaltOrFault := by
  unfold Obligations.StepsEndTheRunExactlyAtHaltOrFault
  intro s running
  obtain ⟨t, h, effect⟩ := step_effect running
  obtain ⟨notReady, halted, -⟩ := effect.status running
  have faulted := effect.faulted_iff running
  refine ⟨t, StepFaults s, h, Iff.rfl, faulted, halted, ?_⟩
  rw [RunStatus.eq_running_iff notReady, Ne, faulted, Ne, halted]

end Sys2Proof.Machine
end

section
/-! PROOFS. The host: reset, the moves of R91 and R92, the output of a run (R93), and the load of one opcode that
`withFetchWord` stands for. -/

namespace Sys2Proof.Machine

variable {s t : State}

/-! ### Reset (R89, R90) -/

theorem reset_reg (r : RegIdx) : State.reset.reg r = 0x00#8 := Vector.getElem_replicate r.isLt

theorem reset_entry (k : Fin 16) : State.reset.entry k = 0x0000#16 := Vector.getElem_replicate k.isLt

/-- Settles O35: registers and stack are sixteen zeros each, and empty memory reads 0 everywhere. -/
theorem resetLeavesEverythingZero : Obligations.ResetLeavesEverythingZero := by
  unfold Obligations.ResetLeavesEverythingZero
  exact ⟨reset_reg, rfl, rfl, reset_entry, fun a ha => State.memRead_of_lt (Nat.lt_succ_of_le ha), rfl, rfl, rfl, rfl⟩

/-- Settles O49: the core is `Ready` at the entry point, memory and stack are empty and no fault is recorded. -/
theorem invAtReset : Obligations.InvAtReset := Inv.reset

/-- Settles O51: a write or a start takes a `Ready` state with the invariant to one, and a reset to reset. -/
theorem invKeptByHost : Obligations.InvKeptByHost := by
  unfold Obligations.InvKeptByHost
  exact fun _ _ _ => Inv.hostMove

theorem hostMove_reset_of_not_running (h : s.status ≠ .running) : s.hostMove .reset = some State.reset := if_neg h

/-- Settles O48: after the run has ended a move that is no reset leaves the state, hence the status. -/
theorem resetIsTheOnlyWayOut : Obligations.ResetIsTheOnlyWayOut := by
  unfold Obligations.ResetIsTheOnlyWayOut
  refine ⟨fun s => hostMove_reset_of_not_running, fun s t m ended move changed => ?_⟩
  by_cases isReset : m = .reset
  · subst isReset
    exact (hostMove_reset move).2
  · have still := hostMove_of_ended ended move isReset
    exact absurd (congrArg State.status still) changed

/-! ### The host's writes (R91) -/

theorem hostMove_writeByte_of_ready {a : Nat} (ready : s.status = .ready) (inMemory : a < 4096) (v : Byte) :
    s.hostMove (.writeByte a v) = some { s with mem := s.mem.write a v } := by
  have placed : wellFormedAddress a = true := decide_eq_true inMemory
  simp [State.hostMove, State.memWrite, ready, placed, inMemory]

theorem hostMove_writeReg_of_ready (ready : s.status = .ready) (i : RegIdx) (v : Byte) :
    s.hostMove (.writeReg i v) = some (s.setReg i v) := if_pos ready

theorem hostMove_writeByte_eq_none {a : Nat} {v : Byte} (h : s.status = .ready → 4096 ≤ a) :
    s.hostMove (.writeByte a v) = none :=
  Option.eq_none_iff_forall_ne_some.mpr fun _ move =>
    have ⟨ready, inMemory, _⟩ := hostMove_writeByte move
    absurd inMemory (h ready).not_gt

theorem hostMove_writeReg_eq_none {i : RegIdx} {v : Byte} (h : s.status ≠ .ready) :
    s.hostMove (.writeReg i v) = none := if_neg h

theorem State.memRead_congr {a : Nat} (h : t.mem.read a = s.mem.read a) : t.memRead a = s.memRead a := by
  rw [State.memRead, State.memRead, h]

theorem hostStart_frame (s : State) :
    SameRegs s s.hostStart ∧ s.hostStart.pc = s.pc ∧ SameStack s s.hostStart ∧ SameMemory s s.hostStart ∧
      SameFaultRecord s s.hostStart := by
  by_cases ready : s.status = .ready
  · rw [hostStart_of_ready ready]
    exact ⟨fun _ => rfl, rfl, ⟨rfl, fun _ => rfl⟩, fun _ => rfl, rfl, rfl, rfl⟩
  · rw [hostStart_of_not_ready ready]
    exact ⟨.refl s, rfl, .refl s, .refl s, rfl, rfl, rfl⟩

/-- No move but reset writes `pc`, the stack or the fault record, and of these moves only start writes the status. -/
theorem hostMove_frame {m : HostMove} (move : s.hostMove m = some t) (notReset : m ≠ .reset) :
    t.pc = s.pc ∧ SameStack s t ∧ SameFaultRecord s t ∧ (m ≠ .start → t.status = s.status) := by
  cases m with
  | writeByte a v =>
    obtain ⟨-, -, rfl⟩ := hostMove_writeByte move
    exact ⟨rfl, ⟨rfl, fun _ => rfl⟩, ⟨rfl, rfl, rfl⟩, fun _ => rfl⟩
  | writeReg i v =>
    obtain ⟨-, rfl⟩ := hostMove_writeReg move
    exact ⟨rfl, ⟨rfl, fun _ => rfl⟩, ⟨rfl, rfl, rfl⟩, fun _ => rfl⟩
  | start =>
    obtain rfl : s.hostStart = t := Option.some.inj move
    obtain ⟨-, pc, stack, -, record⟩ := hostStart_frame s
    exact ⟨pc, stack, record, fun notStart => absurd rfl notStart⟩
  | reset => exact absurd rfl notReset

/-- A byte write in `Ready` makes its address read the byte, and no other address read anything new. -/
theorem hostMove_writeByte_spec {a : Nat} (canonical : s.mem.wf = true) (ready : s.status = .ready)
    (inMemory : a < 4096) (v : Byte) :
    ∃ t, s.hostMove (.writeByte a v) = some t ∧ t.memRead a = some v ∧ t.mem.wf = true ∧
      (∀ b, b ≠ a → t.memRead b = s.memRead b) ∧ SameRegs s t ∧ t.pc = s.pc ∧ SameStack s t ∧ SameRun s t := by
  have read := fun b => Memory.read_write canonical a b v
  refine ⟨_, hostMove_writeByte_of_ready ready inMemory v, ?_, Memory.wf_write canonical inMemory v, fun b other => ?_,
    fun _ => rfl, rfl, ⟨rfl, fun _ => rfl⟩, rfl, rfl, rfl, rfl⟩
  · rw [State.memRead_of_lt inMemory, read, if_pos rfl]
  · exact State.memRead_congr ((read b).trans (if_neg other))

/-- Settles O45: in `Ready` a write is one memory or register write, and else it is no move. -/
theorem hostWritesOnePlaceInReady : Obligations.HostWritesOnePlaceInReady := by
  unfold Obligations.HostWritesOnePlaceInReady
  refine ⟨fun s a v canonical ready ha => hostMove_writeByte_spec canonical ready (Nat.lt_succ_of_le ha) v,
    fun s i v ready => ?_, fun s a i v notReady => ?_, fun s a v outside => ?_, fun _ _ _ => hostMove_frame⟩
  · exact ⟨_, hostMove_writeReg_of_ready ready i v, s.setReg_reg_same i v, OnlyRegsChange_setReg s i v⟩
  · exact ⟨hostMove_writeByte_eq_none fun ready => absurd ready notReady, hostMove_writeReg_eq_none notReady⟩
  · exact hostMove_writeByte_eq_none fun _ => outside

/-! ### The output of a run (R93) -/

theorem output_of_ended (ended : s.status = .halted ∨ s.status = .faulted) :
    s.output = some ⟨s.status, s.faultCause, s.faultPc, s.faultOpcode, s.regs⟩ := if_pos ended

theorem output_of_not_ended (notHalted : s.status ≠ .halted) (notFaulted : s.status ≠ .faulted) : s.output = none :=
  if_neg (not_or.mpr ⟨notHalted, notFaulted⟩)

/-- The output reads the registers, the status and the fault record only. -/
theorem output_congr (regs : SameRegs s t) (run : SameRun s t) : t.output = s.output := by
  obtain ⟨status, cause, faultPc, opcode⟩ := run
  rw [State.output, State.output, status, cause, faultPc, opcode, State.regs_ext regs]

/-- Settles O47: the output is the status, the record and the register file, and there is one when the run has ended. -/
theorem hostReadsTheRegistersAtTheEnd : Obligations.HostReadsTheRegistersAtTheEnd := by
  unfold Obligations.HostReadsTheRegistersAtTheEnd
  exact ⟨fun s ended => ⟨_, output_of_ended ended, rfl, rfl, rfl, rfl, fun _ => rfl⟩,
    fun s => output_of_not_ended, fun s t => output_congr⟩

/-! ### The host start (R92) -/

/-- In any status but `Ready` every host move but a reset leaves the state as it is. -/
theorem hostMove_of_not_ready {m : HostMove} (notReady : s.status ≠ .ready) (move : s.hostMove m = some t)
    (notReset : m ≠ .reset) : t = s := by
  cases m with
  | writeByte a v => exact absurd (hostMove_writeByte move).1 notReady
  | writeReg i v => exact absurd (hostMove_writeReg move).1 notReady
  | start => exact (Option.some.inj move).symm.trans (hostStart_of_not_ready notReady)
  | reset => exact absurd rfl notReset

theorem RunStatus.started_of_ne_ready {r : RunStatus} (h : r ≠ .ready) :
    r = .running ∨ r = .halted ∨ r = .faulted := by
  cases r with
  | ready => exact absurd rfl h
  | running | halted | faulted => simp

/-- A running core steps, and not back to `Ready`. -/
theorem step_of_running (running : s.status = .running) :
    ∃ t, step s = .next t ∧ (t.status = .running ∨ t.status = .halted ∨ t.status = .faulted) := by
  obtain ⟨t, next, effect⟩ := step_effect running
  exact ⟨t, next, RunStatus.started_of_ne_ready (effect.status running).1⟩

/-- Settles O46: a start writes the status, only in `Ready`; a running core steps, and the host's moves leave it. -/
theorem hostStartsTheRun : Obligations.HostStartsTheRun := by
  unfold Obligations.HostStartsTheRun
  refine ⟨fun s ready => ?_, fun s notReady => ?_, fun s => step_of_running, fun s t m running notReset move => ?_⟩
  · have running : s.hostStart.status = .running := by rw [hostStart_of_ready ready]
    exact ⟨_, rfl, running, hostStart_frame s⟩
  · exact congrArg some (hostStart_of_not_ready notReady)
  · exact ⟨hostMove_of_not_ready (by simp [running]) move notReset,
      output_of_not_ended (by simp [running]) (by simp [running])⟩

/-! ### The load of one opcode, and the start in one (log 4) -/

/-- `withFetchWord` writes memory and the status, and no other field. -/
theorem State.withFetchWord_eq (s : State) (nbits w : Nat) : s.withFetchWord nbits w =
    { s with mem := (s.placeOpcode s.pc.toNat (tableOpcode nbits w)).mem, status := .running } := by
  unfold State.withFetchWord State.placeOpcode
  split <;> rfl

/-- Where an opcode's two bytes have been placed, the opcode is fetched. -/
theorem State.placeOpcode_fetchAt (canonical : s.mem.wf = true) {p : Word} (room : p.toNat ≤ 4094) (w : Opcode) :
    (s.placeOpcode p.toNat w).fetchAt p = some w := by
  have read := State.placeOpcode_read canonical (a := p.toNat) (by omega) w
  rw [State.fetchAt_of_le room, read, read, if_neg (by omega), if_pos rfl, if_pos rfl, opcodeOfBytes_split]

/-- The decoder reads a table opcode from its two bytes as it reads the opcode itself. -/
theorem decodeTableWord_eq (nbits w : Nat) : decodeTableWord nbits w = (decode (tableOpcode nbits w)).instr? := by
  rw [decodeTableWord, decodeBytes, opcodeOfBytes_split]

/-- Settles O12: the two bytes placed at `pc` are those fetched there, and placing them writes no others. -/
theorem withFetchWordPlacesTheOpcode : Obligations.WithFetchWordPlacesTheOpcode := by
  unfold Obligations.WithFetchWordPlacesTheOpcode
  intro s nbits w canonical room
  rw [State.withFetchWord_eq]
  refine ⟨State.placeOpcode_fetchAt canonical room _, decodeTableWord_eq nbits w, rfl,
    State.placeOpcode_wf canonical _ _, fun a notHi notLo => State.memRead_congr ?_, fun _ => rfl,
    ⟨rfl, fun _ => rfl⟩, rfl, rfl, rfl, rfl⟩
  exact (State.placeOpcode_read canonical (by omega) _ a).trans (by rw [if_neg notLo, if_neg notHi])

end Sys2Proof.Machine
end
